-- ==== Sys2Proof/Word.lean ====
section
/-!
DEFINITION. The bit-vector widths of the block (00_scope.md rules R6, R8): bytes, 32-bit words, 64-bit registers.
-/

namespace Sys2Proof

/-- A byte of buffer memory, and a row index of a Reduction Table. -/
abbrev Byte := BitVec 8

/-- A 32-bit value: a polynomial, an accumulator, a table entry, a checksum, a command word. -/
abbrev Word := BitVec 32

/-- A 64-bit value: a host-visible register (`XW`), a buffer address or a length (`ALEN`). -/
abbrev Reg := BitVec 64

end Sys2Proof
end

