-- ==== Sys2Proof/Syntax.lean ====
section
/-!
DEFINITION. The commands of the block: one constructor per row of spec/opcode_table.json, in the table's order
(30_encoding.md rule R73), and the engines they name (rule R75).
-/

namespace Sys2Proof

/-- The 4-bit `ENG` field of a command word, as written: a real engine, an alias, or an id that names no engine
(30_encoding.md rule R75). A reserved id is a legal encoding whose command then faults, so it is kept here. -/
abbrev EngId := BitVec 4

/-- The real engines, ids 0 to 4 of 30_encoding.md rule R75. -/
inductive Engine where
  /-- 0 `GEN32`: generic slice-by-N engine on slot 0. -/
  | gen32
  /-- 1 `GEN32C`: generic slice-by-N engine on slot 1. -/
  | gen32c
  /-- 2 `GENCU`: generic slice-by-N engine on slot 2, the custom polynomial. -/
  | gencu
  /-- 3 `HWN`: hardware-accelerated engine, narrow form. -/
  | hwn
  /-- 4 `HWW`: hardware-accelerated engine, wide form. -/
  | hww
deriving DecidableEq, Repr

/-- A command (30_encoding.md rule R73). Its only operand in the word is `ENG`. -/
inductive Instr where
  /-- `SUPP e` (40_contract.md rule R93). -/
  | supp (e : EngId)
  /-- `POLY e` (40_contract.md rule R94). -/
  | poly (e : EngId)
  /-- `COMP e` (40_contract.md rule R95). -/
  | comp (e : EngId)
  /-- `COMPF e` (40_contract.md rule R96). -/
  | compf (e : EngId)
  /-- `SEL e` (44_selector.md rule R163). -/
  | sel (e : EngId)
  /-- `TBUILD` (41_table_builder.md rule R118). -/
  | tbuild
  /-- `TREAD e` (41_table_builder.md rule R119). -/
  | tread (e : EngId)
  /-- `CSTEP.B` (43_hw_engine.md rule R146). -/
  | cstepB
  /-- `CSTEP.H` (43_hw_engine.md rule R147). -/
  | cstepH
  /-- `CSTEP.W` (43_hw_engine.md rule R148). -/
  | cstepW
  /-- `CSTEP.D` (43_hw_engine.md rule R149). -/
  | cstepD
deriving DecidableEq, Repr

end Sys2Proof
end

