-- ==== Sys2Proof/WellFormed.lean ====
section
/-!
DEFINITION. Which commands a host script may hold (30_encoding.md rule R83: `e` is an engine name or number of rule
R75). A word whose `ENG` names no engine is still a command and still decodes; it faults when it runs, so decoding
and execution never ask for well-formedness. DESIGN CHOICE (log entry 16): rule R83 leaves open whether `e` may be a
reserved number 5 to 13; a command so written is not well-formed here.
-/

namespace Sys2Proof

/-- The id names an engine or an alias: 0 to 4, 14 or 15 (30_encoding.md rule R75; 5 to 13 name no engine). -/
def EngId.named (e : EngId) : Bool :=
  e.toNat ≤ 4 || e.toNat == 14 || e.toNat == 15

/-- A command as a host script spells it: its engine operand, if it has one, names an engine or an alias. DESIGN CHOICE
(log entry 16): a reserved number 5 to 13 is refused here, which 30_encoding.md rule R83 does not say. -/
def Instr.wf : Instr → Bool
  | .supp e => EngId.named e
  | .poly e => EngId.named e
  | .comp e => EngId.named e
  | .compf e => EngId.named e
  | .sel e => EngId.named e
  | .tbuild => true
  | .tread e => EngId.named e
  | .cstepB => true
  | .cstepH => true
  | .cstepW => true
  | .cstepD => true

end Sys2Proof
end

