-- ==== Sys2Proof/Decode.lean ====
section
/-!
DEFINITION. From the 64-bit value a host writes to `CMD` to a command, total, rejecting each reserved encoding by
name (30_encoding.md rules R70 to R79), and back.
-/

namespace Sys2Proof

/-- `OPC`, bits 7:0 (30_encoding.md rule R71). -/
def opcField (v : Reg) : BitVec 8 := v.extractLsb' 0 8

/-- `ENG`, bits 11:8 (30_encoding.md rule R71). -/
def engField (v : Reg) : EngId := v.extractLsb' 8 4

/-- `ZERO`, bits 31:12 of the word (30_encoding.md rule R71). -/
def zeroField (v : Reg) : BitVec 20 := v.extractLsb' 12 20

/-- Bits 63:32 of the written value, which must be zero (30_encoding.md rule R72). -/
def upperField (v : Reg) : BitVec 32 := v.extractLsb' 32 32

/-- Why a value written to `CMD` is a reserved encoding: the cases of 30_encoding.md rule R77. -/
inductive Reserved where
  /-- Bits 63:32 of the written value are not 0. -/
  | upperBits
  /-- `ZERO` is not 0. -/
  | zeroBits
  /-- `OPC` is `0x00` or `0x0C` to `0xFF`. -/
  | opcode
  /-- `TBUILD` with `ENG` not 2. -/
  | tbuildEng
  /-- A `CSTEP` with `ENG` not 0. -/
  | cstepEng
deriving DecidableEq, Repr

/-- What a value written to `CMD` is: a command of 30_encoding.md rule R73, or a reserved encoding of rule R77. -/
inductive Decoded where
  | instr (i : Instr)
  | reserved (r : Reserved)
deriving DecidableEq, Repr

/-- A row whose `ENG` must be 0 (30_encoding.md rule R76). -/
def cstepRow (e : EngId) (i : Instr) : Decoded :=
  if e = 0#4 then .instr i else .reserved .cstepEng

/-- The decoder, in the order of 30_encoding.md rule R79: bits 63:32 and `ZERO`, then `OPC`, then the fixed `ENG` of
`TBUILD` and `CSTEP`. An `ENG` that names no engine is left to the command (rule R73). -/
def decode (v : Reg) : Decoded :=
  if upperField v ≠ 0#32 then .reserved .upperBits
  else if zeroField v ≠ 0#20 then .reserved .zeroBits
  else match (opcField v).toNat with
    | 0x01 => .instr (.supp (engField v))
    | 0x02 => .instr (.poly (engField v))
    | 0x03 => .instr (.comp (engField v))
    | 0x04 => .instr (.compf (engField v))
    | 0x05 => .instr (.sel (engField v))
    | 0x06 => if engField v = 2#4 then .instr .tbuild else .reserved .tbuildEng
    | 0x07 => .instr (.tread (engField v))
    | 0x08 => cstepRow (engField v) .cstepB
    | 0x09 => cstepRow (engField v) .cstepH
    | 0x0A => cstepRow (engField v) .cstepW
    | 0x0B => cstepRow (engField v) .cstepD
    | _ => .reserved .opcode

/-- The command of a decoded value, if it is one. -/
def Decoded.instr? : Decoded → Option Instr
  | .instr i => some i
  | .reserved _ => none

/-- The format of 30_encoding.md rule R71: `OPC` in bits 7:0, `ENG` in bits 11:8, `ZERO` above. -/
def commandWord (e : EngId) (opc : BitVec 8) : Word := opc.setWidth 32 ||| (e.setWidth 32 <<< 8)

/-- The encoder: the word assembled for a command (30_encoding.md rules R73, R76, R83). -/
def encode : Instr → Word
  | .supp e => commandWord e 0x01#8
  | .poly e => commandWord e 0x02#8
  | .comp e => commandWord e 0x03#8
  | .compf e => commandWord e 0x04#8
  | .sel e => commandWord e 0x05#8
  | .tbuild => commandWord 2#4 0x06#8
  | .tread e => commandWord e 0x07#8
  | .cstepB => commandWord 0#4 0x08#8
  | .cstepH => commandWord 0#4 0x09#8
  | .cstepW => commandWord 0#4 0x0A#8
  | .cstepD => commandWord 0#4 0x0B#8

/-- The 64-bit value a host writes to `CMD` to issue the word: bits 63:32 zero (30_encoding.md rule R72). -/
def cmdValue (w : Word) : Reg := w.setWidth 64

/-- The mask of the command's opcode-table row (30_encoding.md rule R73). -/
def rowMask : Instr → Word
  | .supp _ => 0xFFFFF0FF#32
  | .poly _ => 0xFFFFF0FF#32
  | .comp _ => 0xFFFFF0FF#32
  | .compf _ => 0xFFFFF0FF#32
  | .sel _ => 0xFFFFF0FF#32
  | .tbuild => 0xFFFFFFFF#32
  | .tread _ => 0xFFFFF0FF#32
  | .cstepB => 0xFFFFFFFF#32
  | .cstepH => 0xFFFFFFFF#32
  | .cstepW => 0xFFFFFFFF#32
  | .cstepD => 0xFFFFFFFF#32

/-- The match value of the command's opcode-table row (30_encoding.md rule R73). -/
def rowMatch : Instr → Word
  | .supp _ => 0x00000001#32
  | .poly _ => 0x00000002#32
  | .comp _ => 0x00000003#32
  | .compf _ => 0x00000004#32
  | .sel _ => 0x00000005#32
  | .tbuild => 0x00000206#32
  | .tread _ => 0x00000007#32
  | .cstepB => 0x00000008#32
  | .cstepH => 0x00000009#32
  | .cstepW => 0x0000000A#32
  | .cstepD => 0x0000000B#32

/-- The command a row's bits stand for, numbered as spec/opcode_table.json numbers them. One command is one 32-bit
word delivered as one `CMD` value, so no words are laid out in bytes. -/
def decodeTableWord (nbits w : Nat) : Option Instr :=
  if nbits ≤ 64 then (decode (BitVec.ofNat 64 (w % 2 ^ nbits))).instr? else none

end Sys2Proof
end

