-- ==== Sys2Proof/Config.lean ====
section
/-!
DEFINITION. What an implementation fixes: the constants of 00_scope.md rule R6 and the open parameters of rule R7.
The parameters are plain data, held in `State`, so that a statement over every state is a statement over every
configuration (93_implementation_defined.md U1 to U4). The spec leaves no result of an instruction undefined, so there is no free value here.
-/

namespace Sys2Proof.Config

/-- `NCOL`: columns of a Reduction Table. -/
abbrev ncol : Nat := 24

/-- `NROW`: rows of a column, one per byte value. -/
abbrev nrow : Nat := 256

/-- `GBLK`: bytes consumed per block iteration of the generic engine, 6 words of `GW` = 32 bits. -/
abbrev gblk : Nat := 24

/-- `HNB`: bytes per iteration of the narrow hardware engine, 2 words of 32 bits. -/
abbrev hnb : Nat := 8

/-- `HWB`: bytes per iteration of the wide hardware engine, 3 words of 64 bits. -/
abbrev hwb : Nat := 24

end Sys2Proof.Config

namespace Sys2Proof

/-- The addresses `base`, ..., `base + size - 1`. -/
structure Region where
  base : Nat
  size : Nat
deriving DecidableEq, Repr

/-- The platform's open parameters of 00_scope.md rule R7 that no command writes: the Capability Flags, and the
addresses the platform does not let the block read. (`NPORT` is the number of ports in `State`; `Mem` is `State.mem`.) -/
structure Platform where
  /-- `CAP_N`: the native CRC-32C instruction, 8-, 16- and 32-bit operands. -/
  capN : Bool
  /-- `CAP_W`: the 64-bit operand form; used only as `CAP_N and CAP_W` (43_hw_engine.md rule R141). -/
  capW : Bool
  /-- Every address in one of these is not `readable` (20_memory.md rule R58); every other address is. Any
  predicate on 64-bit addresses is given by some such list. -/
  unreadable : List Region
deriving DecidableEq, Repr

end Sys2Proof
end

