-- ==== Sys2Proof/Machine/State.lean ====
section
/-!
DEFINITION. The state of the block as plain data (10_state.md rules R20 to R41), what its host and platform may do to
it, and the state after reset.
-/

namespace Sys2Proof.Machine

/-- A Reduction Table: 24 columns of 256 rows of 32-bit entries (10_state.md rule R33). -/
abbrev Table := Vector (Vector Word Config.nrow) Config.ncol

/-- One slot of the table store: the valid bit `TV[s]` and the entries `TABLE[s]` (10_state.md rules R33, R34). -/
structure Slot where
  valid : Bool
  table : Table
deriving DecidableEq, Repr

/-- A port: its registers (10_state.md rule R21). `CAP` and `CMD` hold nothing of their own (rules R29, R31). -/
structure Port where
  /-- `PREV`, `x[0]` (rule R22). -/
  prev : Reg
  /-- `PTR`, `x[1]` (rule R23). -/
  ptr : Reg
  /-- `LEN`, `x[2]` (rule R24). -/
  len : Reg
  /-- `DATA`, `x[3]` (rule R25). -/
  data : Reg
  /-- `RES`, `x[4]` (rule R26). -/
  res : Reg
  /-- `STATUS`, `x[5]` (rule R28). -/
  status : Reg
  /-- The port is stuck: its `CMD` write never completes and it issues nothing more (60_exceptions.md rule R182). -/
  stuck : Bool
  /-- MODEL'S OWN: what the port's latest register read returned to the host (30_encoding.md rule R83). -/
  rdata : Reg
deriving DecidableEq, Repr

/-- What a host does on a port (10_state.md rule R32; 30_encoding.md rules R83, R84). Register numbers are any
natural number, so that an access to a register that does not exist can be written and refused. -/
inductive HostOp where
  /-- `RD reg`. -/
  | read (reg : Nat)
  /-- `WR reg, value`; on register 7, `CMD`, it issues the command word. -/
  | write (reg : Nat) (value : Reg)
  /-- `WR reg, <the value read>`: the host writes what its latest read returned, the second half of `CHAIN`. -/
  | writeBack (reg : Nat)
deriving DecidableEq, Repr

/-- One act of the outside world, in the linear order of 20_memory.md rule R61 and 60_exceptions.md rule R184. -/
inductive Event where
  /-- A host access on a port. -/
  | access (port : Nat) (op : HostOp)
  /-- Another agent writes a byte of buffer memory between commands. -/
  | memWrite (addr : Reg) (value : Byte)
  /-- A `CMD` write during which other agents write the bytes `held`, in that order; `draws` gives, for each byte
  whose read is open, the value the block saw (20_memory.md rule R62; 93_implementation_defined.md U8). -/
  | race (port : Nat) (value : Reg) (held draws : List (Reg × Byte))
  /-- A reset, after which the Capability Flags have the values given (70_reset_and_hazards.md rules R190, R192). It
  takes effect between commands only: while a port is stuck it is refused (93_implementation_defined.md U11). -/
  | reset (capN capW : Bool)
deriving DecidableEq, Repr

/-- Buffer memory: address and byte pairs in the canonical form `Memory.wf`. -/
abbrev Memory := List Host.Cell

/-- The state of the block and of what it is connected to (INVENTORY.md, State). -/
structure State where
  /-- `CAP_N`, `CAP_W`, `readable`: configuration, written by no command (10_state.md rule R30). -/
  plat : Platform
  /-- The `NPORT` ports, numbered from 0 (10_state.md rule R20). -/
  ports : List Port
  /-- Slot 0, for `POLY_CRC32`. -/
  slot0 : Slot
  /-- Slot 1, for `POLY_CRC32C`. -/
  slot1 : Slot
  /-- Slot 2, for the custom polynomial. -/
  slot2 : Slot
  /-- `CPOLY` (10_state.md rule R35). -/
  cpoly : Word
  /-- `Mem`: the buffer memory the block reads and never writes (20_memory.md rule R50). -/
  mem : Memory
  /-- MODEL'S OWN: the acts of the outside world still to come, first to last. -/
  events : List Event
  /-- MODEL'S OWN: the number of the issuing port, whose access is being served. -/
  cur : Nat
deriving DecidableEq, Repr

/-- The transient values of a running `COMP` or `COMPF` (10_state.md rule R38). A command is one step, so they exist
inside a step only. -/
structure Transient where
  /-- The accumulator, the complement of the running CRC. -/
  acc : Word
  /-- The count of buffer bytes already folded; it never passes `LEN < 2^63`. -/
  pos : Nat
  /-- MODEL'S OWN: the buffer addresses read so far, in order (20_memory.md rule R53; 42_slice_engine.md rule R130). -/
  reads : List Nat
deriving DecidableEq, Repr

/-- The two error kinds of 60_exceptions.md rule R170. They are NOT stops of the machine: a command that raises one
ends in a next state (rule R172). -/
inductive EzFault where
  /-- EZ's "Not-Supported", code 1. -/
  | notSupported
  /-- EZ's "Invalid Argument", code 2. -/
  | invalidArgument
deriving DecidableEq, Repr

/-- Reasons for which the machine stops with a fault: none. The block's two error kinds are recorded in `STATUS` and
the machine goes on (60_exceptions.md rules R172, R177); a stuck port does not stop the other ports (rule R182);
every address a command forms is in the address space (40_contract.md rule R99). -/
inductive Fault where
deriving DecidableEq, Repr

/-- Reasons for which a step is refused: host acts to which the spec gives no meaning, and instructions not
modelled yet. -/
inductive Refusal where
  /-- Raised by an arm of `exec` for an instruction without a meaning. Safe: the model stops. No arm does so. -/
  | notModelled (mnemonic : String)
  /-- Raised by the step for an access on a port number `NPORT` or above, which does not exist (10_state.md rule R40).
  Safe: no claim can be made of such an access. -/
  | noSuchPort
  /-- Raised by the step for an access to a register number 8 or above: "Register numbers 8 and up do not exist: the
  spec gives such an access no meaning (the model refuses it)" (10_state.md rule R32). Safe. -/
  | noSuchRegister
  /-- Raised by the step for a race whose draws hold a value the byte did not hold during the command: no run of the
  hardware does that (93_implementation_defined.md U8). Safe. -/
  | badDraw
  /-- Raised by the step for a reset while a port is stuck, whose command is not over: "Reset while a command runs" is
  refused, and "`stuck` is final in the model" (93_implementation_defined.md U11, U16; 70_reset_and_hazards.md rule
  R190). Safe. -/
  | resetDuringCommand
deriving DecidableEq, Repr

/-- The outcome of a step or of a command. -/
abbrev Result := Host.Outcome State Fault Refusal

/-- A table all of whose entries are 0. -/
def Table.zero : Table := Vector.replicate _ (Vector.replicate _ 0#32)

/-- A slot after reset: not valid (10_state.md rule R41). DESIGN CHOICE (log entry 3): its entries, unspecified and
never read while the slot is not valid, are 0. -/
def Slot.reset : Slot := ⟨false, Table.zero⟩

/-- A port after reset: every register 0 (10_state.md rule R41), not stuck (log entry 6), nothing read (log entry 4). -/
def Port.reset : Port := ⟨0, 0, 0, 0, 0, 0, false, 0⟩

/-- The state after a reset of a block with the given configuration, ports and buffer memory (10_state.md rule R41).
DESIGN CHOICE (log entry 3): `CPOLY`, unspecified and never read while `TV[2] = 0`, is 0. -/
def State.resetWith (plat : Platform) (nport : Nat) (mem : Memory) : State where
  plat := plat
  ports := List.replicate nport Port.reset
  slot0 := Slot.reset
  slot1 := Slot.reset
  slot2 := Slot.reset
  cpoly := 0#32
  mem := mem
  events := []
  cur := 0

/-- DESIGN CHOICE (log entry 1): the configuration `State.reset` shows, where the spec has open parameters: both
capabilities present, every address readable. -/
def platformAtReset : Platform := ⟨true, true, []⟩

/-- The block right after reset, with one port (log entry 1), nothing listed in memory (log entry 2) and no act of the
outside world to come (log entry 5). -/
def State.reset : State := State.resetWith platformAtReset 1 []

end Sys2Proof.Machine
end

