-- ==== Sys2Proof/Machine/Flags.lean ====
section
/-!
DEFINITION. The fields of `STATUS` and how a command leaves them (10_state.md rule R28; 60_exceptions.md rules R171, R172).
-/

namespace Sys2Proof.Machine

/-- `ERR`, bits 1:0. -/
def errField (st : Reg) : BitVec 2 := st.extractLsb' 0 2

/-- `SNS`, bit 4: a command of the port has ended `NOT_SUPPORTED` since reset. -/
def snsField (st : Reg) : Bool := st.getLsbD 4

/-- `SIA`, bit 5: a command of the port has ended `INVALID_ARGUMENT` since reset. -/
def siaField (st : Reg) : Bool := st.getLsbD 5

/-- `STATUS.ERR <- code`: the other bits stay. -/
def setErr (code : BitVec 2) (st : Reg) : Reg := (st &&& ~~~0x3#64) ||| code.setWidth 64

/-- `STATUS.ERR <- 0`, the flags of a command that ends without a fault. -/
def statusOk (st : Reg) : Reg := setErr 0#2 st

/-- The code of a fault in `STATUS.ERR` (60_exceptions.md rule R171). -/
def errCode : EzFault → BitVec 2
  | .notSupported => 1#2
  | .invalidArgument => 2#2

/-- The sticky bit of a fault: `SNS` or `SIA`. -/
def stickyBit : EzFault → Reg
  | .notSupported => 0x10#64
  | .invalidArgument => 0x20#64

/-- The flags of a command that raises a fault (60_exceptions.md rule R172). -/
def statusFault (f : EzFault) (st : Reg) : Reg := setErr (errCode f) st ||| stickyBit f

end Sys2Proof.Machine
end

