-- ==== Sys2Proof/Machine/Memory.lean ====
section
/-!
DEFINITION. Buffer memory: reading and writing a byte, the canonical form, multi-byte reads and the little-endian word
(20_memory.md rules R50 to R58).
-/

namespace Sys2Proof.Machine

/-- What an address with no entry reads as. DESIGN CHOICE (log entry 2): the spec leaves the contents of memory open. -/
def unlistedByte : Byte := 0#8

/-- `Mem(addr)`. -/
def Memory.read : Memory → Nat → Byte
  | [], _ => unlistedByte
  | (k, b) :: rest, a => if k = a then b else Memory.read rest a

/-- Put the byte in front of the entries, unless it is what an unlisted address reads as. -/
def Memory.put (a : Nat) (b : Byte) (rest : Memory) : Memory :=
  if b = unlistedByte then rest else (a, b) :: rest

/-- The memory after another agent has written a byte. The block itself writes none (20_memory.md rule R50). -/
def Memory.write : Memory → Nat → Byte → Memory
  | [], a, b => Memory.put a b []
  | (k, c) :: rest, a, b =>
    if a < k then Memory.put a b ((k, c) :: rest)
    else if a = k then Memory.put a b rest
    else (k, c) :: Memory.write rest a b

/-- The memory after a list of byte writes, first to last. -/
def Memory.writeAll (m : Memory) (ws : List (Reg × Byte)) : Memory :=
  ws.foldl (fun m w => Memory.write m w.1.toNat w.2) m

/-- Canonical from address `lo` on: addresses strictly rising and below 2^64, no entry that reads as unlisted. -/
def Memory.wfFrom (lo : Nat) : Memory → Bool
  | [] => true
  | (k, b) :: rest => decide (lo ≤ k) && decide (k < 2 ^ 64) && decide (b ≠ unlistedByte) && Memory.wfFrom (k + 1) rest

/-- The canonical form of memory: equal memories are equal lists. -/
def Memory.wf (m : Memory) : Bool := Memory.wfFrom 0 m

/-- `MemRead(addr, n)`: the `n` bytes from `addr` up, in that order (20_memory.md rule R52). -/
def memRead (m : Memory) (addr : Nat) : Nat → List Byte
  | 0 => []
  | n + 1 => Memory.read m addr :: memRead m (addr + 1) n

/-- The unsigned value whose least significant byte is the first of the list (00_scope.md rule R11). -/
def leNat : List Byte → Nat
  | [] => 0
  | b :: bs => b.toNat + 256 * leNat bs

/-- `LE(MemRead(addr, 4))`, a 32-bit word (20_memory.md rule R54). -/
def loadWord (m : Memory) (addr : Nat) : Word := BitVec.ofNat 32 (leNat (memRead m addr 4))

/-- `LE(MemRead(addr, 8))`, a 64-bit word (20_memory.md rule R54). -/
def loadDouble (m : Memory) (addr : Nat) : Reg := BitVec.ofNat 64 (leNat (memRead m addr 8))

/-- The region and the `n` bytes from `a` up have an address in common. -/
def Region.meets (r : Region) (a n : Nat) : Bool :=
  decide (max r.base a < min (r.base + r.size) (a + n))

/-- `readable(addr)` (20_memory.md rule R58). -/
def readable (p : Platform) (a : Nat) : Bool :=
  p.unreadable.all fun r => !(decide (r.base ≤ a) && decide (a < r.base + r.size))

/-- Every one of the `n` bytes from `a` up is `readable`: the condition for `COMP` and `COMPF` to have a step
(20_memory.md rule R58). Said by ranges, so that a long buffer costs no more than a short one. -/
def bufferReadable (p : Platform) (a n : Nat) : Bool :=
  p.unreadable.all fun r => !(Region.meets r a n)

end Sys2Proof.Machine
end

