-- ==== Sys2Proof/Machine/Ops.lean ====
section
/-!
DEFINITION. The named operations on ports and the ways a command ends (10_state.md rules R20 to R32; 60_exceptions.md
rules R172, R177, R182; 70_reset_and_hazards.md rule R200).
-/

namespace Sys2Proof.Machine

/-- The issuing port. Every run keeps `cur` a port that exists (`State.cur < NPORT` once a port has been served). -/
def State.port (s : State) : Port := s.ports.getD s.cur Port.reset

/-- The state with the issuing port replaced. -/
def State.setPort (s : State) (p : Port) : State := { s with ports := s.ports.set s.cur p }

/-- The value of `CAP`: `zext_64(CAP_W || CAP_N)` (10_state.md rules R29, R41). -/
def capWord (p : Platform) : Reg := (BitVec.ofBool p.capW ++ BitVec.ofBool p.capN).setWidth 64

/-- What a host read of register `n` of the issuing port returns, `n` from 0 to 7 (10_state.md rule R32); `CMD` reads 0
(rule R31). -/
def readReg (s : State) : Nat → Option Reg
  | 0 => some s.port.prev
  | 1 => some s.port.ptr
  | 2 => some s.port.len
  | 3 => some s.port.data
  | 4 => some s.port.res
  | 5 => some s.port.status
  | 6 => some (capWord s.plat)
  | 7 => some 0#64
  | _ => none

/-- A host read hands the value to the host and changes no register (10_state.md rule R32). -/
def hostRead (n : Nat) (s : State) : Result :=
  match readReg s n with
  | some v => .next (s.setPort { s.port with rdata := v })
  | none => .refused .noSuchRegister

/-- A host write of a register other than `CMD`: `x[0..3]` take all 64 bits, `x[4..6]` ignore the write (10_state.md
rule R32). -/
def writeReg (n : Nat) (v : Reg) (s : State) : Result :=
  match n with
  | 0 => .next (s.setPort { s.port with prev := v })
  | 1 => .next (s.setPort { s.port with ptr := v })
  | 2 => .next (s.setPort { s.port with len := v })
  | 3 => .next (s.setPort { s.port with data := v })
  | 4 => .next s
  | 5 => .next s
  | 6 => .next s
  | _ => .refused .noSuchRegister

/-- The state after a fault: the code and the sticky bit go to `STATUS` of the issuing port and nothing else changes
(60_exceptions.md rules R172, R176). -/
def State.withFault (f : EzFault) (s : State) : State :=
  s.setPort { s.port with status := statusFault f s.port.status }

/-- The state after a command that computed `r`: `RES <- zext_64(r)`, `STATUS.ERR <- 0` (10_state.md rule R26). -/
def State.withResult (r : Word) (s : State) : State :=
  s.setPort { s.port with res := r.setWidth 64, status := statusOk s.port.status }

/-- The state after a command that writes no result: `STATUS.ERR <- 0` (41_table_builder.md rule R118). -/
def State.withOk (s : State) : State :=
  s.setPort { s.port with status := statusOk s.port.status }

/-- The issuing port is stuck; no register and no table has changed (20_memory.md rule R58; 60_exceptions.md rule
R182). -/
def State.withStuck (s : State) : State :=
  s.setPort { s.port with stuck := true }

/-- TAKING A FAULT, `raise F`. Control goes nowhere: no handler, no vector, no saved state (60_exceptions.md rule R172).
There is no return from a fault: the port takes its next command at once (rule R177). -/
def raise (f : EzFault) (s : State) : Result := .next (s.withFault f)

/-- The end of a command that computed `r`. -/
def complete (r : Word) (s : State) : Result := .next (s.withResult r)

/-- The end of `TBUILD`. -/
def completeQuietly (s : State) : Result := .next s.withOk

/-- A command with no step: other ports go on (60_exceptions.md rule R182). -/
def stall (s : State) : Result := .next s.withStuck

end Sys2Proof.Machine
end

