-- ==== Sys2Proof/Machine/Crc.lean ====
section
/-!
DEFINITION. The arithmetic every engine rests on: the two polynomials, the shift step, and the reference function
(00_scope.md rules R6, R9, R12).
-/

namespace Sys2Proof.Machine

/-- `POLY_CRC32`, bit-reversed (00_scope.md rule R6). -/
def polyCrc32 : Word := 0xEDB88320#32

/-- `POLY_CRC32C`, bit-reversed (00_scope.md rule R6). -/
def polyCrc32c : Word := 0x82F63B78#32

/-- One shift step: shift right by one, exclusive-or with the polynomial when the bit shifted out is 1. -/
def shiftStep (p c : Word) : Word :=
  if c.getLsbD 0 then (c >>> 1) ^^^ p else c >>> 1

/-- `f` done `n` times in sequence. -/
def times {α : Type} (f : α → α) : Nat → α → α
  | 0, x => x
  | n + 1, x => times f n (f x)

/-- Eight shift steps: the reduction of one byte. -/
def shift8 (p c : Word) : Word := times (shiftStep p) 8 c

/-- Byte `k` of a word, byte 0 the least significant. -/
def byteOf {w : Nat} (v : BitVec w) (k : Nat) : Byte := v.extractLsb' (8 * k) 8

/-- `zext_32` of a byte. -/
def zext32 (b : Byte) : Word := b.setWidth 32

/-- One byte of the reference fold. -/
def refByte (p acc : Word) (b : Byte) : Word := shift8 p (acc ^^^ zext32 b)

/-- `crc_ref(P, prev, bytes)`: the bit-at-a-time reference implementation (00_scope.md rule R12). No engine uses it. -/
def crcRef (p prev : Word) (bytes : List Byte) : Word := ~~~(bytes.foldl (refByte p) (~~~prev))

end Sys2Proof.Machine
end

