-- ==== Sys2Proof/Machine/TableBuilder.lean ====
section
/-!
DEFINITION. The Polynomial Table Builder (41_table_builder.md rules R110 to R117).
-/

namespace Sys2Proof.Machine

/-- `T[j][i]` of a table. -/
def Table.entry (t : Table) (j : Fin Config.ncol) (i : Byte) : Word := (t[j.val])[i.toNat]'i.isLt

/-- Column 0: the row widened to 32 bits, shifted 8 times (41_table_builder.md rule R112). -/
def column0 (p : Word) (i : Byte) : Word := shift8 p (zext32 i)

/-- One more byte-wise table step on the entry of the column before (41_table_builder.md rule R113). -/
def nextColumn (p prev : Word) : Word := (prev >>> 8) ^^^ column0 p (byteOf prev 0)

/-- The entry the builder puts in column `j`, row `i`: column `j` is derived from column `j-1` (rule R113). -/
def buildEntry (p : Word) : Nat → Byte → Word
  | 0, i => column0 p i
  | j + 1, i => nextColumn p (buildEntry p j i)

/-- `build(P)`: all 24 columns of 256 rows (41_table_builder.md rule R111). Any polynomial is accepted (rule R110). -/
def build (p : Word) : Table :=
  Vector.ofFn fun j => Vector.ofFn fun i => buildEntry p j.val (BitVec.ofFin i)

end Sys2Proof.Machine
end

