-- ==== Sys2Proof/Machine/SliceEngine.lean ====
section
/-!
DEFINITION. The generic slice-by-N folding engine (42_slice_engine.md rules R125 to R132).
-/

namespace Sys2Proof.Machine

/-- Step 1 of every engine: the accumulator starts as the complement of the seed (42_slice_engine.md rule R126;
40_contract.md rule R97). -/
def startFold (seed : Word) : Transient := ⟨~~~seed, 0, []⟩

/-- `fold32(T, c, w)`: the word through the four columns from base `c` up, its lowest-address byte through the highest
(42_slice_engine.md rule R129). -/
def fold32 (t : Table) (c : Nat) (w : Word) (h : c + 3 < Config.ncol := by decide) : Word :=
  Table.entry t ⟨c + 3, h⟩ (byteOf w 0) ^^^ Table.entry t ⟨c + 2, Nat.lt_of_succ_lt h⟩ (byteOf w 1)
    ^^^ Table.entry t ⟨c + 1, Nat.lt_of_succ_lt (Nat.lt_of_succ_lt h)⟩ (byteOf w 2)
    ^^^ Table.entry t ⟨c, Nat.lt_of_succ_lt (Nat.lt_of_succ_lt (Nat.lt_of_succ_lt h))⟩ (byteOf w 3)

/-- Step 2, one block of 6 words (42_slice_engine.md rule R128). -/
def blockStep (t : Table) (m : Memory) (a : Nat) (x : Transient) : Transient where
  acc := fold32 t 20 (loadWord m (a + x.pos) ^^^ x.acc) ^^^ fold32 t 16 (loadWord m (a + x.pos + 4))
    ^^^ fold32 t 12 (loadWord m (a + x.pos + 8)) ^^^ fold32 t 8 (loadWord m (a + x.pos + 12))
    ^^^ fold32 t 4 (loadWord m (a + x.pos + 16)) ^^^ fold32 t 0 (loadWord m (a + x.pos + 20))
  pos := x.pos + Config.gblk
  reads := x.reads ++ List.range' (a + x.pos) Config.gblk

/-- Column 0 with the byte mixed into the accumulator's low byte: the classic byte step (42_slice_engine.md rule R127). -/
def tableByte (t : Table) (acc : Word) (b : Byte) : Word :=
  (acc >>> 8) ^^^ Table.entry t 0 (byteOf acc 0 ^^^ b)

/-- Step 3, one byte (42_slice_engine.md rule R127). -/
def byteStep (t : Table) (m : Memory) (a : Nat) (x : Transient) : Transient where
  acc := tableByte t x.acc (Memory.read m (a + x.pos))
  pos := x.pos + 1
  reads := x.reads ++ [a + x.pos]

/-- The run of `gen_fold`: the block loop `n / 24` times, then the byte loop `n mod 24` times (42_slice_engine.md rule
R132). -/
def genRun (t : Table) (m : Memory) (seed : Word) (a n : Nat) : Transient :=
  times (byteStep t m a) (n % Config.gblk) (times (blockStep t m a) (n / Config.gblk) (startFold seed))

/-- `gen_fold(T, seed, a, n)`: the complement of the final accumulator (42_slice_engine.md rules R131, R132). -/
def genFold (t : Table) (m : Memory) (seed : Word) (a n : Nat) : Word := ~~~(genRun t m seed a n).acc

end Sys2Proof.Machine
end

