-- ==== Sys2Proof/Machine/HwEngine.lean ====
section
/-!
DEFINITION. The native CRC-32C instruction in its four operand forms and the two wrapper engines (43_hw_engine.md rules
R142 to R156).
-/

namespace Sys2Proof.Machine

/-- `crc32c_step_8(s, v)`: no complement in or out (43_hw_engine.md rule R142). -/
def crc32cStep8 (s : Word) (v : Byte) : Word := shift8 polyCrc32c (s ^^^ zext32 v)

/-- `crc32c_step_16(s, v)`: the least significant byte first (43_hw_engine.md rule R143). -/
def crc32cStep16 (s : Word) (v : BitVec 16) : Word :=
  crc32cStep8 (crc32cStep8 s (byteOf v 0)) (byteOf v 1)

/-- `crc32c_step_32(s, v)` (43_hw_engine.md rule R144). -/
def crc32cStep32 (s v : Word) : Word :=
  crc32cStep8 (crc32cStep8 (crc32cStep8 (crc32cStep8 s (byteOf v 0)) (byteOf v 1)) (byteOf v 2)) (byteOf v 3)

/-- `crc32c_step_64(s, v)`: the chain over the eight bytes, low half first (43_hw_engine.md rule R145). -/
def crc32cStep64 (s : Word) (v : Reg) : Word :=
  crc32cStep32 (crc32cStep32 s (v.extractLsb' 0 32)) (v.extractLsb' 32 32)

/-- One iteration of the narrow form: 2 words of 32 bits (43_hw_engine.md rule R151). -/
def hwnStep (m : Memory) (a : Nat) (x : Transient) : Transient where
  acc := crc32cStep32 (crc32cStep32 x.acc (loadWord m (a + x.pos))) (loadWord m (a + x.pos + 4))
  pos := x.pos + Config.hnb
  reads := x.reads ++ List.range' (a + x.pos) Config.hnb

/-- One iteration of the wide form: 3 words of 64 bits (43_hw_engine.md rule R152). -/
def hwwStep (m : Memory) (a : Nat) (x : Transient) : Transient where
  acc := crc32cStep64 (crc32cStep64 (crc32cStep64 x.acc (loadDouble m (a + x.pos)))
    (loadDouble m (a + x.pos + 8))) (loadDouble m (a + x.pos + 16))
  pos := x.pos + Config.hwb
  reads := x.reads ++ List.range' (a + x.pos) Config.hwb

/-- One byte of the tail of either form: the 8-bit operand (43_hw_engine.md rule R156). -/
def hwByteStep (m : Memory) (a : Nat) (x : Transient) : Transient where
  acc := crc32cStep8 x.acc (Memory.read m (a + x.pos))
  pos := x.pos + 1
  reads := x.reads ++ [a + x.pos]

/-- The run of `hwn_fold`: `n / 8` iterations, then `n mod 8` bytes (43_hw_engine.md rule R151). -/
def hwnRun (m : Memory) (seed : Word) (a n : Nat) : Transient :=
  times (hwByteStep m a) (n % Config.hnb) (times (hwnStep m a) (n / Config.hnb) (startFold seed))

/-- The run of `hww_fold`: `n / 24` iterations, then `n mod 24` bytes (43_hw_engine.md rule R152). -/
def hwwRun (m : Memory) (seed : Word) (a n : Nat) : Transient :=
  times (hwByteStep m a) (n % Config.hwb) (times (hwwStep m a) (n / Config.hwb) (startFold seed))

/-- `hwn_fold(seed, a, n)`, engine 3 (43_hw_engine.md rule R151). -/
def hwnFold (m : Memory) (seed : Word) (a n : Nat) : Word := ~~~(hwnRun m seed a n).acc

/-- `hww_fold(seed, a, n)`, engine 4 (43_hw_engine.md rule R152). -/
def hwwFold (m : Memory) (seed : Word) (a n : Nat) : Word := ~~~(hwwRun m seed a n).acc

end Sys2Proof.Machine
end

