-- ==== Sys2Proof/Machine/Operands.lean ====
section
/-!
DEFINITION. Every operand form of the commands: engine ids, the operands taken from the issuing port's registers, the
argument checks (30_encoding.md rules R74, R75, R80, R81; 40_contract.md rules R90 to R92, R99; 44_selector.md rules
R160 to R162).
-/

namespace Sys2Proof.Machine

/-- The number of a real engine (30_encoding.md rule R75). -/
def engineNumber : Engine → Word
  | .gen32 => 0#32
  | .gen32c => 1#32
  | .gencu => 2#32
  | .hwn => 3#32
  | .hww => 4#32

/-- `supported(k)` (40_contract.md rule R91; 43_hw_engine.md rule R141). -/
def supported (p : Platform) : Engine → Bool
  | .gen32 => true
  | .gen32c => true
  | .gencu => true
  | .hwn => p.capN
  | .hww => p.capN && p.capW

/-- `sel(POLY_CRC32)`: the hardware engines do not compute CRC-32 (44_selector.md rule R161). -/
def selCrc32 : Engine := .gen32

/-- `sel(POLY_CRC32C)`: wide, then narrow, then generic (44_selector.md rule R161). -/
def selCrc32c (p : Platform) : Engine :=
  if supported p .hww then .hww
  else if supported p .hwn then .hwn
  else .gen32c

/-- `resolve(e)`; none where it raises InvalidArgument, `e` in 5 to 13 (44_selector.md rule R162). -/
def resolve (p : Platform) (e : EngId) : Option Engine :=
  match e.toNat with
  | 0 => some .gen32
  | 1 => some .gen32c
  | 2 => some .gencu
  | 3 => some .hwn
  | 4 => some .hww
  | 14 => some selCrc32
  | 15 => some (selCrc32c p)
  | _ => none

/-- The engine exists: engine 2 only once constructed (40_contract.md rule R90). -/
def engineExists (s : State) : Engine → Bool
  | .gen32 => true
  | .gen32c => true
  | .gencu => s.slot2.valid
  | .hwn => true
  | .hww => true

/-- `target(e)`; none where it raises InvalidArgument (40_contract.md rule R90). -/
def target (s : State) (e : EngId) : Option Engine :=
  match resolve s.plat e with
  | some k => if engineExists s k then some k else none
  | none => none

/-- `poly_of(k)` (40_contract.md rule R92). -/
def polyOf (s : State) : Engine → Word
  | .gen32 => polyCrc32
  | .gen32c => polyCrc32c
  | .gencu => s.cpoly
  | .hwn => polyCrc32c
  | .hww => polyCrc32c

/-- `zext_64` is applied by `complete`; this is the 1 or 0 of a capability query. -/
def boolWord (b : Bool) : Word := if b then 1#32 else 0#32

/-- `PREV[31:0]`, the seed of `COMPF` and `CSTEP` (10_state.md rule R22). -/
def seedOperand (s : State) : Word := s.port.prev.extractLsb' 0 32

/-- `DATA[31:0]`, the polynomial of `TBUILD` (10_state.md rule R25). -/
def polyOperand (s : State) : Word := s.port.data.extractLsb' 0 32

/-- `DATA[7:0]`, the row of `TREAD` (30_encoding.md rule R80). -/
def rowOperand (s : State) : Byte := s.port.data.extractLsb' 0 8

/-- `DATA[12:8]`, the column of `TREAD` (30_encoding.md rule R80). -/
def columnOperand (s : State) : BitVec 5 := s.port.data.extractLsb' 8 5

/-- The operand of `CSTEP.B`, `.H`, `.W`, `.D`: the low `w` bits of `DATA` (30_encoding.md rule R81). -/
def stepOperand (w : Nat) (s : State) : BitVec w := s.port.data.extractLsb' 0 w

/-- The argument checks of `COMP` and `COMPF` on the buffer address and length, of which `check_args` raises
InvalidArgument at the first that fails: negative length, null with nonzero length, past the top of the address space
(40_contract.md rule R99). `a + n` is unbounded. -/
def argsOk (a n : Reg) : Bool :=
  if n.getLsbD 63 then false
  else if a = 0#64 ∧ n ≠ 0#64 then false
  else if a.toNat + n.toNat > 2 ^ 64 then false
  else true

end Sys2Proof.Machine
end

