-- ==== Sys2Proof/Machine/Contract.lean ====
section
/-!
DEFINITION. The checksum engine contract: SUPP, POLY, COMP, COMPF, and the lazy build they share with TREAD
(40_contract.md rules R90 to R100).
-/

namespace Sys2Proof.Machine

/-- The slot of a valid table stays; a slot not valid is built and becomes valid, published whole (40_contract.md rule
R100; 41_table_builder.md rule R117). -/
def buildIfNeeded (p : Word) (sl : Slot) : Slot :=
  if sl.valid then sl else ⟨true, build p⟩

/-- `need_table(k)` (40_contract.md rule R100). -/
def needTable (k : Engine) (s : State) : State :=
  match k with
  | .gen32 => { s with slot0 := buildIfNeeded polyCrc32 s.slot0 }
  | .gen32c => { s with slot1 := buildIfNeeded polyCrc32c s.slot1 }
  | .gencu => s
  | .hwn => s
  | .hww => s

/-- `engine_fold(k, seed, a, n)` (40_contract.md rule R98). -/
def engineFold (s : State) (k : Engine) (seed : Word) (a n : Nat) : Word :=
  match k with
  | .gen32 => genFold s.slot0.table s.mem seed a n
  | .gen32c => genFold s.slot1.table s.mem seed a n
  | .gencu => genFold s.slot2.table s.mem seed a n
  | .hwn => hwnFold s.mem seed a n
  | .hww => hwwFold s.mem seed a n

/-- The fold of a command whose checks have passed: the table first, then the buffer; with an unreadable buffer byte
the command has no step and changes nothing, the table store included (20_memory.md rule R58;
92_eei_decisions.md D11). -/
def foldBuffer (k : Engine) (seed : Word) (s : State) : Result :=
  if bufferReadable s.plat s.port.ptr.toNat s.port.len.toNat then
    complete (engineFold (needTable k s) k seed s.port.ptr.toNat s.port.len.toNat) (needTable k s)
  else stall s

/-- `compute_from`: the checks in the order of 60_exceptions.md rule R175, then the fold (40_contract.md rules R95,
R96). -/
def computeFrom (e : EngId) (seed : Word) (s : State) : Result :=
  match target s e with
  | none => raise .invalidArgument s
  | some k =>
    if supported s.plat k = false then raise .notSupported s
    else if argsOk s.port.ptr s.port.len = false then raise .invalidArgument s
    else foldBuffer k seed s

/-- SUPP (40_contract.md rule R93). -/
def execSupp (e : EngId) (s : State) : Result :=
  match target s e with
  | none => raise .invalidArgument s
  | some k => complete (boolWord (supported s.plat k)) s

/-- POLY (40_contract.md rule R94). -/
def execPoly (e : EngId) (s : State) : Result :=
  match target s e with
  | none => raise .invalidArgument s
  | some k => complete (polyOf s k) s

/-- COMP: seed 0 (40_contract.md rule R95). -/
def execComp (e : EngId) (s : State) : Result := computeFrom e 0#32 s

/-- COMPF: seed `PREV[31:0]` (40_contract.md rule R96). -/
def execCompf (e : EngId) (s : State) : Result := computeFrom e (seedOperand s) s

end Sys2Proof.Machine
end

