-- ==== Sys2Proof/Machine/CrcInstr.lean ====
section
/-!
DEFINITION. The commands that expose the native instruction: CSTEP.B, CSTEP.H, CSTEP.W, CSTEP.D (43_hw_engine.md rules
R146 to R149).
-/

namespace Sys2Proof.Machine

/-- One step of the native instruction, if the capability it needs is present (43_hw_engine.md rules R140, R146). -/
def stepIf (present : Bool) (r : Word) (s : State) : Result :=
  if present then complete r s else raise .notSupported s

/-- CSTEP.B (43_hw_engine.md rule R146). -/
def execCstepB (s : State) : Result :=
  stepIf s.plat.capN (crc32cStep8 (seedOperand s) (stepOperand 8 s)) s

/-- CSTEP.H (43_hw_engine.md rule R147). -/
def execCstepH (s : State) : Result :=
  stepIf s.plat.capN (crc32cStep16 (seedOperand s) (stepOperand 16 s)) s

/-- CSTEP.W (43_hw_engine.md rule R148). -/
def execCstepW (s : State) : Result :=
  stepIf s.plat.capN (crc32cStep32 (seedOperand s) (stepOperand 32 s)) s

/-- CSTEP.D needs both capabilities (43_hw_engine.md rule R149). -/
def execCstepD (s : State) : Result :=
  stepIf (s.plat.capN && s.plat.capW) (crc32cStep64 (seedOperand s) (stepOperand 64 s)) s

end Sys2Proof.Machine
end

