-- ==== Sys2Proof/Machine/Selector.lean ====
section
/-!
DEFINITION. SEL (44_selector.md rule R163). The selection itself is in Operands.lean; it has no state (rule R164).
-/

namespace Sys2Proof.Machine

/-- SEL: `resolve`, not `target`: it reports a name, whether or not the engine is constructed or supported
(44_selector.md rule R163). -/
def execSel (e : EngId) (s : State) : Result :=
  match resolve s.plat e with
  | none => raise .invalidArgument s
  | some k => complete (engineNumber k) s

end Sys2Proof.Machine
end

