-- ==== Sys2Proof/Machine/Tables.lean ====
section
/-!
DEFINITION. The commands of the table builder: TBUILD, TREAD (41_table_builder.md rules R118, R119).
-/

namespace Sys2Proof.Machine

/-- Slot 2 and `CPOLY` after the construction of the custom engine for `p`. -/
def constructCustom (p : Word) (s : State) : State :=
  { s with slot2 := ⟨true, build p⟩, cpoly := p }

/-- TBUILD (41_table_builder.md rule R118). -/
def execTbuild (s : State) : Result := completeQuietly (constructCustom (polyOperand s) s)

/-- The table an engine reads, if it has one: the hardware engines have none (41_table_builder.md rule R119). -/
def tableOf (s : State) : Engine → Option Table
  | .gen32 => some s.slot0.table
  | .gen32c => some s.slot1.table
  | .gencu => some s.slot2.table
  | .hwn => none
  | .hww => none

/-- The entry in the column of `DATA[12:8]`; none where there is no such column. -/
def entryAt (t : Table) (j : BitVec 5) (i : Byte) : Option Word :=
  if h : j.toNat < Config.ncol then some (Table.entry t ⟨j.toNat, h⟩ i) else none

/-- TREAD's entry of engine `k`: no table, then no column, in that order (60_exceptions.md rule R175). The table is
made valid only when both checks have passed (40_contract.md rule R100). -/
def readEntry (k : Engine) (s : State) : Result :=
  match tableOf (needTable k s) k with
  | none => raise .invalidArgument s
  | some t =>
    match entryAt t (columnOperand s) (rowOperand s) with
    | none => raise .invalidArgument s
    | some r => complete r (needTable k s)

/-- TREAD (41_table_builder.md rule R119). -/
def execTread (e : EngId) (s : State) : Result :=
  match target s e with
  | none => raise .invalidArgument s
  | some k => readEntry k s

end Sys2Proof.Machine
end

