-- ==== Sys2Proof/Machine/Dispatch.lean ====
section
/-!
DEFINITION. The one match from a command to its meaning (30_encoding.md rule R73).
-/

namespace Sys2Proof.Machine

def exec (i : Instr) (s : State) : Host.Outcome State Fault Refusal :=
  match i with
  | .supp e => Sys2Proof.Machine.execSupp e s
  | .poly e => Sys2Proof.Machine.execPoly e s
  | .comp e => Sys2Proof.Machine.execComp e s
  | .compf e => Sys2Proof.Machine.execCompf e s
  | .sel e => Sys2Proof.Machine.execSel e s
  | .tbuild => Sys2Proof.Machine.execTbuild s
  | .tread e => Sys2Proof.Machine.execTread e s
  | .cstepB => Sys2Proof.Machine.execCstepB s
  | .cstepH => Sys2Proof.Machine.execCstepH s
  | .cstepW => Sys2Proof.Machine.execCstepW s
  | .cstepD => Sys2Proof.Machine.execCstepD s

end Sys2Proof.Machine
end

