-- ==== Sys2Proof/Machine/Bus.lean ====
section
/-!
DEFINITION. What the block does with one act of the outside world: a host access on a port, a `CMD` write, a memory
write by another agent, a reset (10_state.md rules R27, R31, R32; 60_exceptions.md rules R182, R184;
70_reset_and_hazards.md rules R190 to R192).
-/

namespace Sys2Proof.Machine

/-- A value written to `CMD` of the issuing port: the command it encodes, executed to its end, or InvalidArgument for
a reserved encoding (10_state.md rule R31; 30_encoding.md rule R77). -/
def command (v : Reg) (s : State) : Result :=
  match decode v with
  | .instr i => exec i s
  | .reserved _ => raise .invalidArgument s

/-- A host write of register `n` of the issuing port; register 7 is `CMD`. -/
def hostWrite (n : Nat) (v : Reg) (s : State) : Result :=
  if n = 7 then command v s else writeReg n v s

/-- A host access on the issuing port. -/
def hostOp (op : HostOp) (s : State) : Result :=
  match op with
  | .read n => hostRead n s
  | .write n v => hostWrite n v s
  | .writeBack n => hostWrite n s.port.rdata s

/-- Do `f` as port `p`. A port that does not exist is refused (10_state.md rule R40). A stuck port issues nothing more
(60_exceptions.md rule R182): its access does not take place, and the other ports go on. -/
def onPort (p : Nat) (f : State → Result) (s : State) : Result :=
  if p < s.ports.length then
    if (s.ports.getD p Port.reset).stuck then .next s
    else f { s with cur := p }
  else .refused .noSuchPort

/-- Each draw is a value the byte held during the command: its value before it, or one written during it
(93_implementation_defined.md U8). -/
def drawsHeld (m : Memory) (held draws : List (Reg × Byte)) : Bool :=
  draws.all fun d => decide (Memory.read m d.1.toNat = d.2) || held.contains d

/-- The memory once the writes made during a command have landed. -/
def landWrites (m : Memory) (held : List (Reg × Byte)) : Result → Result
  | .next t => .next { t with mem := Memory.writeAll m held }
  | .fault r => .fault r
  | .refused r => .refused r

/-- A `CMD` write during which other agents write buffer bytes: the command sees each byte as drawn; afterwards memory
holds what was written (20_memory.md rule R62; 93_implementation_defined.md U8). -/
def racedCommand (v : Reg) (held draws : List (Reg × Byte)) (s : State) : Result :=
  if drawsHeld s.mem held draws then
    landWrites s.mem held (command v { s with mem := Memory.writeAll s.mem draws })
  else .refused .badDraw

/-- The state after a reset: every register, valid bit and port as 10_state.md rule R41 says, the Capability Flags as
sampled anew; memory, `readable`, the number of ports and the acts still to come are the outside world's and stay
(70_reset_and_hazards.md rules R190 to R192; that they stay is log entry 12). -/
def resetBlock (capN capW : Bool) (s : State) : State :=
  { State.resetWith { s.plat with capN := capN, capW := capW } s.ports.length s.mem with events := s.events }

/-- A command of some port is not over: it is stuck, for good (60_exceptions.md rules R182, R184). Every other command is
over when its act has been served. -/
def commandRunning (s : State) : Bool := s.ports.any fun q => q.stuck

/-- A reset takes effect between commands; while a command runs it is refused (70_reset_and_hazards.md rule R190;
93_implementation_defined.md U11, U16). -/
def resetAct (capN capW : Bool) (s : State) : Result :=
  if commandRunning s then .refused .resetDuringCommand else .next (resetBlock capN capW s)

/-- One act of the outside world. -/
def serve (ev : Event) (s : State) : Result :=
  match ev with
  | .access p op => onPort p (hostOp op) s
  | .memWrite a b => .next { s with mem := Memory.write s.mem a.toNat b }
  | .race p v held draws => onPort p (racedCommand v held draws) s
  | .reset capN capW => resetAct capN capW s

end Sys2Proof.Machine
end

