-- ==== Sys2Proof/Machine/Step.lean ====
section
/-!
DEFINITION. One step: the next act of the outside world is served; with none to come the block waits (10_state.md rule
R27, "the block then waits for the next write").
-/

namespace Sys2Proof.Machine

/-- One step of the block. -/
def step (s : State) : Host.Outcome State Fault Refusal :=
  match s.events with
  | [] => .next s
  | ev :: rest => serve ev { s with events := rest }

/-- `s` about to serve a host write of the word to `CMD` of port 0. The block fetches nothing: a command comes to it as
the next act of the host (log entry 5). Port 0 is made to exist and not to be stuck, so that the write takes place. -/
def State.withFetchWord (s : State) (nbits w : Nat) : State :=
  { s with
    ports := match s.ports with
      | [] => [Port.reset]
      | p :: ps => { p with stuck := false } :: ps
    events := .access 0 (.write 7 (BitVec.ofNat 64 (w % 2 ^ nbits))) :: s.events }

end Sys2Proof.Machine
end

