-- ==== Sys2Proof/Machine/Script.lean ====
section
/-!
DEFINITION. Host scripts (30_encoding.md rules R83, R84): the lines, the pseudo-instructions and the host accesses they
stand for, in abstract syntax (log entry 9).
-/

namespace Sys2Proof.Machine

/-- The registers a `WR` line may name (30_encoding.md rule R83). -/
inductive OperandReg where
  | prev
  | ptr
  | len
  | data
deriving DecidableEq, Repr

/-- The eight register names, `x[0]` to `x[7]` (10_state.md rule R21). -/
inductive RegName where
  | operand (r : OperandReg)
  | res
  | status
  | cap
  | cmd
deriving DecidableEq, Repr

/-- The number of an operand register (10_state.md rule R21). -/
def operandNumber : OperandReg → Nat
  | .prev => 0
  | .ptr => 1
  | .len => 2
  | .data => 3

/-- The number of a register (10_state.md rule R21). -/
def regNumber : RegName → Nat
  | .operand r => operandNumber r
  | .res => 4
  | .status => 5
  | .cap => 6
  | .cmd => 7

/-- One line of a host script (30_encoding.md rules R83, R84). -/
inductive Line where
  /-- `WR reg, value` -/
  | wr (r : OperandReg) (value : Reg)
  /-- `RD reg` -/
  | rd (r : RegName)
  /-- `mnemonic [e]` -/
  | cmd (i : Instr)
  /-- `.WORD v` -/
  | word (v : Reg)
  /-- `SETBUF a, n` -/
  | setbuf (a n : Reg)
  /-- `CHAIN` -/
  | chain
  /-- `TENT j, i` -/
  | tent (j i : Nat)
deriving DecidableEq, Repr

/-- A line a script may hold (30_encoding.md rule R83). DESIGN CHOICE (log entry 16): the rule leaves open whether a
command's engine operand may be a reserved number 5 to 13; such a line is refused here, though it has its accesses
(`lineOps`), and `.WORD` issues the same word. -/
def Line.wf : Line → Bool
  | .wr _ _ => true
  | .rd _ => true
  | .cmd i => i.wf
  | .word _ => true
  | .setbuf _ _ => true
  | .chain => true
  | .tent _ _ => true

/-- The host accesses of a line (30_encoding.md rules R83, R84). DESIGN CHOICE (log entry 17): rule R84 is silent on a
`TENT j, i` whose `256*j + i` is 2^64 or more; the low 64 bits are written. -/
def lineOps : Line → List HostOp
  | .wr r v => [.write (operandNumber r) v]
  | .rd r => [.read (regNumber r)]
  | .cmd i => [.write 7 (cmdValue (encode i))]
  | .word v => [.write 7 v]
  | .setbuf a n => [.write 1 a, .write 2 n]
  | .chain => [.read 4, .writeBack 0]
  | .tent j i => [.write 3 (BitVec.ofNat 64 (256 * j + i))]

/-- The acts of a script: each line with its port prefix (port 0 unless the line says `@p:`). -/
def assemble (lines : List (Nat × Line)) : List Event :=
  lines.flatMap fun l => (lineOps l.2).map (Event.access l.1)

/-- The mnemonic of a command (30_encoding.md rule R73). -/
def mnemonic : Instr → String
  | .supp _ => "SUPP"
  | .poly _ => "POLY"
  | .comp _ => "COMP"
  | .compf _ => "COMPF"
  | .sel _ => "SEL"
  | .tbuild => "TBUILD"
  | .tread _ => "TREAD"
  | .cstepB => "CSTEP.B"
  | .cstepH => "CSTEP.H"
  | .cstepW => "CSTEP.W"
  | .cstepD => "CSTEP.D"

/-- The name of an engine id; none for an id that names no engine (30_encoding.md rule R75). -/
def engineName (e : EngId) : Option String :=
  match e.toNat with
  | 0 => some "GEN32"
  | 1 => some "GEN32C"
  | 2 => some "GENCU"
  | 3 => some "HWN"
  | 4 => some "HWW"
  | 14 => some "BEST32"
  | 15 => some "BEST32C"
  | _ => none

end Sys2Proof.Machine
end

