-- ==== Sys2Proof/Safety.lean ====
section
/-!
DEFINITION. The terms claims are stated in: the invariant of the block, the premises of a command, and what "nothing
else changes" means.
-/

namespace Sys2Proof.Machine

/-! ## The invariant -/

/-- `STATUS` as 10_state.md rule R28 and 60_exceptions.md rule R183 say it always reads: bits other than `ERR`, `SNS`,
`SIA` zero, `ERR` never 3, and the sticky bit of a recorded fault set. -/
def StatusLegal (st : Reg) : Prop :=
  st &&& ~~~0x33#64 = 0#64 ∧ errField st ≠ 3#2 ∧
    (errField st = 1#2 → snsField st = true) ∧ (errField st = 2#2 → siaField st = true)

/-- "`RES[63:32] = 0` always" (10_state.md rule R26), and a legal `STATUS`. -/
def PortLegal (p : Port) : Prop :=
  p.res.extractLsb' 32 32 = 0#32 ∧ StatusLegal p.status

/-- A valid slot holds the table of its polynomial (10_state.md rules R34, R37). -/
def TablesBuilt (s : State) : Prop :=
  (s.slot0.valid = true → s.slot0.table = build polyCrc32) ∧
  (s.slot1.valid = true → s.slot1.table = build polyCrc32c) ∧
  (s.slot2.valid = true → s.slot2.table = build s.cpoly)

/-- The issuing port exists, so there is at least one port (00_scope.md rule R7). -/
def IssuerExists (s : State) : Prop := s.cur < s.ports.length

/-- What every step keeps: the issuing port exists, every port is legal, valid tables are built, memory is canonical. -/
def State.Inv (s : State) : Prop :=
  IssuerExists s ∧ (∀ p ∈ s.ports, PortLegal p) ∧ TablesBuilt s ∧ Memory.wf s.mem = true

/-- "A model's 'no fault recorded' premise": no sticky bit is set on any port (60_exceptions.md rule R183). -/
def NoFaultRecorded (s : State) : Prop :=
  ∀ p ∈ s.ports, snsField p.status = false ∧ siaField p.status = false

/-! ## The premises of a command -/

/-- The issuing port exists and is not stuck: it can issue a command (60_exceptions.md rule R182). -/
def CanIssue (s : State) : Prop := IssuerExists s ∧ s.port.stuck = false

/-- The buffer's length in bytes, unsigned, and its first address. -/
def bufLen (s : State) : Nat := s.port.len.toNat

/-- The buffer's first address. -/
def bufAddr (s : State) : Nat := s.port.ptr.toNat

/-- The bytes of the buffer, first to last (20_memory.md rule R51). -/
def bufferBytes (s : State) : List Byte := memRead s.mem (bufAddr s) (bufLen s)

/-- The arguments pass every check of 40_contract.md rule R99: not negative, not null with a nonzero length, not past
the top of the address space. -/
def ArgsGood (s : State) : Prop :=
  bufLen s < 2 ^ 63 ∧ (bufAddr s = 0 → bufLen s = 0) ∧ bufAddr s + bufLen s ≤ 2 ^ 64

/-- Every byte of the buffer is `readable` (20_memory.md rule R58). -/
def BufferReadable (s : State) : Prop := ∀ i < bufLen s, readable s.plat (bufAddr s + i) = true

/-! ## What stays -/

/-- The issuing port's operand registers, its read-back value and its not being stuck stay. -/
def OperandsKept (s t : State) : Prop :=
  t.port.prev = s.port.prev ∧ t.port.ptr = s.port.ptr ∧ t.port.len = s.port.len ∧ t.port.data = s.port.data ∧
    t.port.rdata = s.port.rdata ∧ t.port.stuck = s.port.stuck

/-- The number of ports and every register of every other port stay. -/
def OtherPortsKept (s t : State) : Prop :=
  t.ports.length = s.ports.length ∧ ∀ q, q ≠ s.cur → t.ports[q]? = s.ports[q]?

/-- The table store, the valid bits and `CPOLY` stay. -/
def TableStoreKept (s t : State) : Prop :=
  t.slot0 = s.slot0 ∧ t.slot1 = s.slot1 ∧ t.slot2 = s.slot2 ∧ t.cpoly = s.cpoly

/-- The configuration, every byte of memory, the acts still to come and the issuing port's number stay. -/
def OutsideKept (s t : State) : Prop :=
  t.plat = s.plat ∧ (∀ a, Memory.read t.mem a = Memory.read s.mem a) ∧ t.events = s.events ∧ t.cur = s.cur

/-- Every bit of `STATUS` but `ERR` stays. -/
def StickyKept (s t : State) : Prop := t.port.status &&& ~~~3#64 = s.port.status &&& ~~~3#64

/-- All that every command leaves alone, whatever it does: operands, other ports, memory, configuration. -/
def CommandFrame (s t : State) : Prop := OperandsKept s t ∧ OtherPortsKept s t ∧ OutsideKept s t

/-- A command completed with result `r`: `RES` is `r` zero-extended, `ERR` is 0, the other bits of `STATUS` stay. -/
def Completed (r : Word) (s t : State) : Prop :=
  t.port.res = r.setWidth 64 ∧ errField t.port.status = 0#2 ∧ StickyKept s t

/-- A command raised NotSupported: `ERR` 1, `SNS` set, `SIA` and `RES` as before (60_exceptions.md rule R172). -/
def RaisedNotSupported (s t : State) : Prop :=
  errField t.port.status = 1#2 ∧ snsField t.port.status = true ∧ siaField t.port.status = siaField s.port.status ∧
    t.port.status &&& ~~~0x33#64 = s.port.status &&& ~~~0x33#64 ∧ t.port.res = s.port.res

/-- A command raised InvalidArgument: `ERR` 2, `SIA` set, `SNS` and `RES` as before (60_exceptions.md rule R172). -/
def RaisedInvalidArgument (s t : State) : Prop :=
  errField t.port.status = 2#2 ∧ siaField t.port.status = true ∧ snsField t.port.status = snsField s.port.status ∧
    t.port.status &&& ~~~0x33#64 = s.port.status &&& ~~~0x33#64 ∧ t.port.res = s.port.res

/-- The port became stuck and no register changed (60_exceptions.md rule R182). -/
def BecameStuck (s t : State) : Prop :=
  t.ports = s.ports.set s.cur { s.port with stuck := true } ∧ TableStoreKept s t ∧ OutsideKept s t

/-- The slot of engine `k` holds the valid table of the engine's polynomial; the other slots and `CPOLY` are as before.
The hardware engines have no slot and build none (40_contract.md rule R100; 43_hw_engine.md rule R153). -/
def TableMadeValid (k : Engine) (s t : State) : Prop :=
  t.cpoly = s.cpoly ∧ t.slot2 = s.slot2 ∧
    (if k = .gen32 then t.slot0 = ⟨true, build polyCrc32⟩ else t.slot0 = s.slot0) ∧
    (if k = .gen32c then t.slot1 = ⟨true, build polyCrc32c⟩ else t.slot1 = s.slot1)

/-- What a command may do to slots 0 and 1: a slot stays, or goes from not valid to the valid table of its polynomial
(10_state.md rule R34). -/
def KeptOrBuilt (p : Word) (sl sl' : Slot) : Prop := sl' = sl ∨ (sl.valid = false ∧ sl' = ⟨true, build p⟩)

/-! ## When a command faults -/

/-- The value is a reserved encoding, by its number: bits 63:12 not all 0; `OPC` 0 or 12 to 255; `TBUILD` with `ENG`
not 2; a `CSTEP` with `ENG` not 0 (30_encoding.md rule R77). -/
def ReservedValue (v : Reg) : Prop :=
  4096 ≤ v.toNat ∨ v.toNat % 256 = 0 ∨ 12 ≤ v.toNat % 256 ∨ (v.toNat % 256 = 6 ∧ v.toNat / 256 ≠ 2) ∨
    (8 ≤ v.toNat % 256 ∧ v.toNat % 256 ≤ 11 ∧ v.toNat / 256 ≠ 0)

/-- The id names no engine (30_encoding.md rule R75). -/
def IdReserved (e : EngId) : Prop := 5 ≤ e.toNat ∧ e.toNat ≤ 13

/-- The id names no engine, or engine 2 before its construction (40_contract.md rule R90). -/
def NoSuchEngine (s : State) (e : EngId) : Prop := IdReserved e ∨ (e = 2#4 ∧ s.slot2.valid = false)

/-- The id names a hardware engine whose capability is absent; an alias never does (60_exceptions.md rule R173). -/
def EngineUnsupported (p : Platform) (e : EngId) : Prop :=
  (e = 3#4 ∧ p.capN = false) ∨ (e = 4#4 ∧ (p.capN = false ∨ p.capW = false))

/-- The id stands for a hardware engine: 3, 4, or `BEST32C` where one is supported (44_selector.md rule R161). -/
def StandsForHardware (p : Platform) (e : EngId) : Prop :=
  e = 3#4 ∨ e = 4#4 ∨ (e = 15#4 ∧ p.capN = true)

/-- Row and column of `TREAD` in `DATA`, by its number: `DATA = 256*j + i` below bit 13 (30_encoding.md rule R80). -/
def treadColumn (s : State) : Nat := s.port.data.toNat / 256 % 32

/-- The row of `TREAD` (30_encoding.md rule R80). -/
def treadRow (s : State) : Byte := BitVec.ofNat 8 (s.port.data.toNat % 256)

/-- When a command raises NotSupported (60_exceptions.md rule R173). -/
def RaisesNotSupported (s : State) : Instr → Prop
  | .comp e => EngineUnsupported s.plat e
  | .compf e => EngineUnsupported s.plat e
  | .cstepB => s.plat.capN = false
  | .cstepH => s.plat.capN = false
  | .cstepW => s.plat.capN = false
  | .cstepD => s.plat.capN = false ∨ s.plat.capW = false
  | .supp _ => False
  | .poly _ => False
  | .sel _ => False
  | .tbuild => False
  | .tread _ => False

/-- When a command raises InvalidArgument: the cases of 60_exceptions.md rule R174, in the order of rule R175. -/
def RaisesInvalidArgument (s : State) : Instr → Prop
  | .supp e => NoSuchEngine s e
  | .poly e => NoSuchEngine s e
  | .comp e => NoSuchEngine s e ∨ (¬ EngineUnsupported s.plat e ∧ ¬ ArgsGood s)
  | .compf e => NoSuchEngine s e ∨ (¬ EngineUnsupported s.plat e ∧ ¬ ArgsGood s)
  | .sel e => IdReserved e
  | .tread e => NoSuchEngine s e ∨ StandsForHardware s.plat e ∨ 24 ≤ treadColumn s
  | .tbuild => False
  | .cstepB => False
  | .cstepH => False
  | .cstepW => False
  | .cstepD => False

/-- The commands with an engine operand, each as a function of its id (30_encoding.md rule R74). -/
def engineCommands : List (EngId → Instr) := [.supp, .poly, .comp, .compf, .sel, .tread]

/-- The first `n` bytes of `DATA`, least significant first: the bytes a `CSTEP` folds (30_encoding.md rule R81). -/
def dataBytes (s : State) (n : Nat) : List Byte := (List.range n).map fun k => byteOf s.port.data k

/-- The next act of the outside world writes the value to `CMD` of port `p`: a host write, a host write of the value its
latest read returned, or a write raced by other agents (10_state.md rule R31). -/
def CmdWriteNext (s : State) (p : Nat) (v : Reg) : Prop :=
  (∃ rest, s.events = .access p (.write 7 v) :: rest) ∨
  (∃ rest q, s.events = .access p (.writeBack 7) :: rest ∧ s.ports[p]? = some q ∧ q.rdata = v) ∨
  (∃ held draws rest, s.events = .race p v held draws :: rest)

/-- The head of the events is served with the rest to come and `p` the issuing port. -/
def served (s : State) (p : Nat) (rest : List Event) : State := { s with events := rest, cur := p }

end Sys2Proof.Machine
end

