-- ==== Sys2Proof/Certificates/Slice0/Obligations.lean ====
section
/-!
DEFINITION. The statements for the provers. The vocabulary (Completed, CommandFrame, TablesBuilt, ...) is in Safety.lean;
each docstring names the rule of spec/ the statement formalises.
-/

open Sys2Proof Sys2Proof.Machine

/-! ## Encoding -/

/-- A value written to `CMD` is the command `i` exactly when it is the word assembled for `i`, with bits 63:32 zero: the
decoder reads every command back from its word, and no other value (30_encoding.md rules R72, R73, R83). -/
def Obligations.DecodeInvertsEncode : Prop :=
  ∀ (v : Reg) (i : Instr), decode v = .instr i ↔ v = cmdValue (encode i)

/-- 30_encoding.md rule R73: a word is a command of a row exactly when `w & mask = match`; the rows are disjoint; an `ENG`
that names no engine leaves the command its row and makes it raise InvalidArgument. -/
def Obligations.WordIsTheCommandOfItsRow : Prop :=
  (∀ (w : Word) (i : Instr), decode (cmdValue w) = .instr i → w &&& rowMask i = rowMatch i) ∧
  (∀ (w : Word) (i : Instr), w &&& rowMask i = rowMatch i →
    ∃ j, decode (cmdValue w) = .instr j ∧ rowMatch j = rowMatch i ∧ rowMask j = rowMask i) ∧
  (∀ (w : Word) (i j : Instr), w &&& rowMask i = rowMatch i → w &&& rowMask j = rowMatch j → rowMatch i = rowMatch j) ∧
  (∀ (s : State) (e : EngId), IssuerExists s → IdReserved e → ∀ c ∈ engineCommands,
    ∃ t, exec (c e) s = .next t ∧ RaisedInvalidArgument s t)

/-- Words written out from the encodings of 30_encoding.md rule R73 and 95_test_vectors.md section 7, one or more of each
command family. A sanity statement. -/
def Obligations.WrittenOutWordsDecode : Prop :=
  decode 0x00000301#64 = .instr (.supp 3#4) ∧ decode 0x00000202#64 = .instr (.poly 2#4) ∧
  decode 0x00000E03#64 = .instr (.comp 14#4) ∧ decode 0x00000F04#64 = .instr (.compf 15#4) ∧
  decode 0x00000F05#64 = .instr (.sel 15#4) ∧ decode 0x00000206#64 = .instr .tbuild ∧
  decode 0x00000407#64 = .instr (.tread 4#4) ∧ decode 0x00000008#64 = .instr .cstepB ∧
  decode 0x0000000B#64 = .instr .cstepD

/-- 30_encoding.md rules R72, R76, R77: which values are reserved encodings, and that one raises InvalidArgument and does
nothing else. -/
def Obligations.ReservedValueRaisesInvalidArgument : Prop :=
  (∀ v : Reg, (∃ r, decode v = .reserved r) ↔ ReservedValue v) ∧
  (∀ (s : State) (v : Reg), IssuerExists s → ReservedValue v →
    ∃ t, command v s = .next t ∧ RaisedInvalidArgument s t ∧ TableStoreKept s t ∧ CommandFrame s t)

/-! ## The step and the host's accesses -/

/-- A `CMD` write whose value decodes to a command is that command's `exec`, as the port that wrote it, with the rest of
the outside world's acts still to come (10_state.md rule R31). The list of acts is the model's (log entry 5). -/
def Obligations.StepRunsTheDecodedCommand : Prop :=
  ∀ (s : State) (p : Nat) (q : Port) (v : Reg) (i : Instr) (rest : List Event),
    s.events = .access p (.write 7 v) :: rest → s.ports[p]? = some q → q.stuck = false → decode v = .instr i →
    step s = exec i (served s p rest)

/-- 10_state.md rule R27: with no act of the outside world to come the block waits: a step changes nothing (as the
model records it, log entry 5). -/
def Obligations.BlockWaitsForTheNextWrite : Prop :=
  ∀ s : State, s.events = [] → step s = .next s

/-- 10_state.md rule R32, reads: of `x[0..6]` the register's 64 bits, of `x[7]` 0; nothing changes but the value handed to
the host (`rdata`, log entry 4); a register number 8 or above is refused (log entry 7). -/
def Obligations.HostReadReturnsTheRegister : Prop :=
  ∀ (s : State) (p n : Nat) (q : Port) (rest : List Event),
    s.events = .access p (.read n) :: rest → s.ports[p]? = some q → q.stuck = false →
    (∀ v, [q.prev, q.ptr, q.len, q.data, q.res, q.status, capWord s.plat, 0#64][n]? = some v →
      step s = .next { served s p rest with ports := s.ports.set p { q with rdata := v } }) ∧
    (8 ≤ n → step s = .refused .noSuchRegister)

/-- 10_state.md rule R32, writes: `x[0..3]` take all 64 bits, a write to `x[4..6]` changes nothing, a register number 8 or
above is refused (log entry 7). -/
def Obligations.HostWriteReplacesTheRegister : Prop :=
  ∀ (s : State) (p n : Nat) (v : Reg) (q : Port) (rest : List Event),
    s.events = .access p (.write n v) :: rest → s.ports[p]? = some q → q.stuck = false →
    (∀ q', [{ q with prev := v }, { q with ptr := v }, { q with len := v }, { q with data := v }, q, q, q][n]? = some q' →
      step s = .next { served s p rest with ports := s.ports.set p q' }) ∧
    (8 ≤ n → step s = .refused .noSuchRegister)

/-- 10_state.md rule R40: the ports are numbered 0 to `NPORT`-1; the model refuses an access on another (log entry 7). -/
def Obligations.AccessOnAnAbsentPortIsRefused : Prop :=
  ∀ (s : State) (p : Nat) (op : HostOp) (rest : List Event),
    s.events = .access p op :: rest → s.ports.length ≤ p → step s = .refused .noSuchPort

/-- 10_state.md rule R29: `CAP[0] = CAP_N`, `CAP[1] = CAP_W`, the other bits 0; a host read returns this, a host write is
ignored. -/
def Obligations.CapShowsTheCapabilityFlags : Prop :=
  ∀ (s : State) (p : Nat) (q : Port) (rest : List Event), s.ports[p]? = some q → q.stuck = false →
    (s.events = .access p (.read 6) :: rest → ∃ t r, step s = .next t ∧ t.ports[p]? = some r ∧
      r.rdata.getLsbD 0 = s.plat.capN ∧ r.rdata.getLsbD 1 = s.plat.capW ∧ r.rdata.toNat < 4) ∧
    (∀ v, s.events = .access p (.write 6 v) :: rest → step s = .next (served s p rest))

/-- 30_encoding.md rule R84: the two accesses of `CHAIN` copy the last result into the seed register (through
`rdata`, log entry 4). -/
def Obligations.ChainCopiesTheResultIntoTheSeed : Prop :=
  ∀ (s : State) (p : Nat) (q : Port) (rest : List Event),
    s.events = (lineOps .chain).map (Event.access p) ++ rest → s.ports[p]? = some q → q.stuck = false →
    core.run 2 s = .next { served s p rest with ports := s.ports.set p { q with prev := q.res, rdata := q.res } }

/-! ## Reset and invariants -/

/-- 10_state.md rule R41 and 70_reset_and_hazards.md rules R190 to R192: a reset while no port is stuck leaves every port's
registers 0 and not stuck, no slot valid, the Capability Flags as sampled anew. Refused while a port is stuck
(93_implementation_defined.md U11, U16). That ports, memory and `readable` stay is the model's (log entry 12), and so is
the bit that says a port is stuck (log entry 6). -/
def Obligations.ResetLeavesTheResetValues : Prop :=
  ∀ (s : State) (capN capW : Bool) (rest : List Event), s.events = .reset capN capW :: rest →
    ((∀ q ∈ s.ports, q.stuck = false) →
      ∃ t, step s = .next t ∧ t.ports.length = s.ports.length ∧
        (∀ q ∈ t.ports, q.prev = 0#64 ∧ q.ptr = 0#64 ∧ q.len = 0#64 ∧ q.data = 0#64 ∧ q.res = 0#64 ∧ q.status = 0#64 ∧
          q.stuck = false) ∧
        t.slot0.valid = false ∧ t.slot1.valid = false ∧ t.slot2.valid = false ∧
        t.plat = { s.plat with capN := capN, capW := capW } ∧ t.mem = s.mem ∧ t.events = rest) ∧
    ((∃ q ∈ s.ports, q.stuck = true) → step s = .refused .resetDuringCommand)

/-- The invariant holds right after reset, for every configuration, every number of ports and every canonical memory, and
so at `State.reset`. -/
def Obligations.ResetStateMeetsTheInvariant : Prop :=
  (∀ (plat : Platform) (n : Nat) (m : Memory), 0 < n → Memory.wf m = true → (State.resetWith plat n m).Inv) ∧
  State.reset.Inv

/-- Every step keeps the invariant: the issuing port exists; `RES[63:32] = 0`; `STATUS` reads as its fields say, `ERR` is
never 3 and a recorded fault has its sticky bit; a valid slot holds the table of its polynomial; memory is canonical. -/
def Obligations.EveryStepKeepsTheInvariant : Prop :=
  ∀ s t : State, s.Inv → step s = .next t → t.Inv

/-- 10_state.md rules R20, R30, 70_reset_and_hazards.md rule R192: no step but a reset changes the Capability Flags. That
no step, a reset included, changes `readable` or `NPORT` is the model's (log entry 12). -/
def Obligations.FlagsAreConstantBetweenResets : Prop :=
  ∀ s t : State, step s = .next t →
    t.ports.length = s.ports.length ∧ t.plat.unreadable = s.plat.unreadable ∧
    ((∀ a b rest, s.events ≠ .reset a b :: rest) → t.plat = s.plat)

/-- 10_state.md rules R34, R36: until a reset a valid slot 0 or 1 keeps every entry and stays valid, a slot 0 or 1 that
becomes valid is the table of its polynomial, slot 2 stays valid once it is, and slot 2 and `CPOLY` change only by a
`TBUILD`. -/
def Obligations.ValidTablesStayUntilReset : Prop :=
  ∀ s t : State, step s = .next t → (∀ a b rest, s.events ≠ .reset a b :: rest) →
    KeptOrBuilt polyCrc32 s.slot0 t.slot0 ∧ KeptOrBuilt polyCrc32c s.slot1 t.slot1 ∧
    (s.slot2.valid = true → t.slot2.valid = true) ∧
    ((t.slot2 = s.slot2 ∧ t.cpoly = s.cpoly) ∨
      ∃ p v, decode v = .instr .tbuild ∧ CmdWriteNext s p v)

/-- 10_state.md rule R28: a sticky bit, once set, is cleared only by reset. -/
def Obligations.StickyBitsStayUntilReset : Prop :=
  ∀ (s t : State) (p : Nat) (q r : Port), step s = .next t → (∀ a b rest, s.events ≠ .reset a b :: rest) →
    s.ports[p]? = some q → t.ports[p]? = some r →
    (snsField q.status = true → snsField r.status = true) ∧ (siaField q.status = true → siaField r.status = true)

/-! ## Frames and the ways a command ends -/

/-- Frame of every command: no command writes `PREV`, `PTR`, `LEN`, `DATA`, another port, the configuration or a byte of
memory; of `STATUS` only `ERR`, `SNS`, `SIA` may change. -/
def Obligations.CommandsLeaveOperandsPortsAndMemory : Prop :=
  ∀ (i : Instr) (s t : State), IssuerExists s → exec i s = .next t →
    t.port.prev = s.port.prev ∧ t.port.ptr = s.port.ptr ∧ t.port.len = s.port.len ∧ t.port.data = s.port.data ∧
    t.port.rdata = s.port.rdata ∧ t.port.status &&& ~~~0x33#64 = s.port.status &&& ~~~0x33#64 ∧
    OtherPortsKept s t ∧ OutsideKept s t

/-- Frame of the table store: SUPP, POLY, SEL and the CSTEPs leave it alone; COMP, COMPF and TREAD may build slot 0 or 1
and nothing else; TBUILD leaves slots 0 and 1. -/
def Obligations.TableStoreChangesOnlyAsDocumented : Prop :=
  ∀ (i : Instr) (s t : State), exec i s = .next t →
    match i with
    | .comp _ => KeptOrBuilt polyCrc32 s.slot0 t.slot0 ∧ KeptOrBuilt polyCrc32c s.slot1 t.slot1 ∧
        t.slot2 = s.slot2 ∧ t.cpoly = s.cpoly
    | .compf _ => KeptOrBuilt polyCrc32 s.slot0 t.slot0 ∧ KeptOrBuilt polyCrc32c s.slot1 t.slot1 ∧
        t.slot2 = s.slot2 ∧ t.cpoly = s.cpoly
    | .tread _ => KeptOrBuilt polyCrc32 s.slot0 t.slot0 ∧ KeptOrBuilt polyCrc32c s.slot1 t.slot1 ∧
        t.slot2 = s.slot2 ∧ t.cpoly = s.cpoly
    | .tbuild => t.slot0 = s.slot0 ∧ t.slot1 = s.slot1
    | .supp _ => TableStoreKept s t
    | .poly _ => TableStoreKept s t
    | .sel _ => TableStoreKept s t
    | .cstepB => TableStoreKept s t
    | .cstepH => TableStoreKept s t
    | .cstepW => TableStoreKept s t
    | .cstepD => TableStoreKept s t

/-- 20_memory.md rule R50: no value written to `CMD` writes buffer memory, and none but a COMP or COMPF reads it: the
outcome is the same whatever memory holds. -/
def Obligations.OnlyCompAndCompfReadMemory : Prop :=
  (∀ (v : Reg) (s t : State), command v s = .next t → t.mem = s.mem) ∧
  (∀ (v : Reg) (s t : State) (m : Memory), (∀ e, decode v ≠ .instr (.comp e) ∧ decode v ≠ .instr (.compf e)) →
    command v s = .next t → command v { s with mem := m } = .next { t with mem := m })

/-- 60_exceptions.md rules R172, R176: a value written to `CMD` that ends in a fault has changed `STATUS` of its port and
nothing else, and has read no memory: the outcome is the same whatever memory holds and whatever is readable. -/
def Obligations.FaultChangesOnlyStatus : Prop :=
  ∀ (v : Reg) (s t : State), CanIssue s → command v s = .next t → t.port.stuck = false →
    errField t.port.status ≠ 0#2 →
    ((errField t.port.status = 1#2 ∧ RaisedNotSupported s t) ∨ (errField t.port.status = 2#2 ∧ RaisedInvalidArgument s t)) ∧
    TableStoreKept s t ∧ CommandFrame s t ∧
    (∀ (m : Memory) (u : List Region),
      command v { s with mem := m, plat := { s.plat with unreadable := u } } =
        .next { t with mem := m, plat := { s.plat with unreadable := u } })

/-- 70_reset_and_hazards.md rule R200 and 40_contract.md rule R107: a value written to `CMD` ends in exactly one of three
ways: completed (`ERR = 0`), faulted (`RES` and tables as before), or stuck (nothing changed but that). No command stops
the block. -/
def Obligations.EveryCommandEndsInOneOfThreeWays : Prop :=
  ∀ (v : Reg) (s : State), CanIssue s → ∃ t, command v s = .next t ∧
    ((t.port.stuck = false ∧ errField t.port.status = 0#2 ∧ StickyKept s t) ∨
     (t.port.stuck = false ∧ (RaisedNotSupported s t ∨ RaisedInvalidArgument s t) ∧ TableStoreKept s t) ∨
     BecameStuck s t)

/-- 60_exceptions.md rule R173: the cases in which a value written to `CMD` raises NotSupported, and no others. -/
def Obligations.NotSupportedIsRaisedExactly : Prop :=
  ∀ (v : Reg) (s : State), CanIssue s →
    ((∃ t, command v s = .next t ∧ t.port.stuck = false ∧ errField t.port.status = 1#2) ↔
      ∃ i, decode v = .instr i ∧ RaisesNotSupported s i)

/-- 60_exceptions.md rules R174, R175: the cases in which InvalidArgument is raised, and no others; an unsupported engine is
reported before bad arguments. -/
def Obligations.InvalidArgumentIsRaisedExactly : Prop :=
  ∀ (v : Reg) (s : State), CanIssue s →
    ((∃ t, command v s = .next t ∧ t.port.stuck = false ∧ errField t.port.status = 2#2) ↔
      (ReservedValue v ∨ ∃ i, decode v = .instr i ∧ RaisesInvalidArgument s i))

/-! ## SUPP, POLY, SEL -/

/-- 40_contract.md rule R93: what SUPP answers, when it faults, and that through an alias the answer is always 1. -/
def Obligations.SuppAnswersWhetherTheEngineCanRun : Prop :=
  ∀ (s : State) (e : EngId), IssuerExists s →
    (∀ k, target s e = some k → ∃ t, exec (.supp e) s = .next t ∧ TableStoreKept s t ∧ CommandFrame s t ∧
      Completed (match k with
        | .hwn => if s.plat.capN then 1#32 else 0#32
        | .hww => if s.plat.capN && s.plat.capW then 1#32 else 0#32
        | .gen32 => 1#32
        | .gen32c => 1#32
        | .gencu => 1#32) s t) ∧
    (NoSuchEngine s e → ∃ t, exec (.supp e) s = .next t ∧ TableStoreKept s t ∧ CommandFrame s t ∧ RaisedInvalidArgument s t) ∧
    (target s e = none ↔ NoSuchEngine s e) ∧
    (e = 14#4 ∨ e = 15#4 → ∃ t, exec (.supp e) s = .next t ∧ Completed 1#32 s t)

/-- 40_contract.md rule R94: POLY answers the polynomial of the engine, whether or not the engine can run. -/
def Obligations.PolyAnswersTheEnginesPolynomial : Prop :=
  ∀ (s : State) (e : EngId), IssuerExists s →
    (∀ k, target s e = some k → ∃ t, exec (.poly e) s = .next t ∧ TableStoreKept s t ∧ CommandFrame s t ∧
      Completed (match k with
        | .gen32 => 0xEDB88320#32
        | .gencu => s.cpoly
        | .gen32c => 0x82F63B78#32
        | .hwn => 0x82F63B78#32
        | .hww => 0x82F63B78#32) s t) ∧
    (NoSuchEngine s e → ∃ t, exec (.poly e) s = .next t ∧ TableStoreKept s t ∧ CommandFrame s t ∧ RaisedInvalidArgument s t) ∧
    (e = 14#4 → ∃ t, exec (.poly e) s = .next t ∧ Completed 0xEDB88320#32 s t) ∧
    (e = 15#4 → ∃ t, exec (.poly e) s = .next t ∧ Completed 0x82F63B78#32 s t)

/-- 44_selector.md rule R163: SEL reports the real engine an id stands for, by its number. -/
def Obligations.SelReportsTheRealEngine : Prop :=
  ∀ (s : State) (e : EngId), IssuerExists s →
    (e.toNat ≤ 4 → ∃ t, exec (.sel e) s = .next t ∧ TableStoreKept s t ∧ CommandFrame s t ∧ Completed (e.setWidth 32) s t) ∧
    (e = 14#4 → ∃ t, exec (.sel e) s = .next t ∧ TableStoreKept s t ∧ CommandFrame s t ∧ Completed 0#32 s t) ∧
    (e = 15#4 → ∃ t, exec (.sel e) s = .next t ∧ TableStoreKept s t ∧ CommandFrame s t ∧
      Completed (if s.plat.capN && s.plat.capW then 4#32 else if s.plat.capN then 3#32 else 1#32) s t) ∧
    (IdReserved e → ∃ t, exec (.sel e) s = .next t ∧ TableStoreKept s t ∧ CommandFrame s t ∧ RaisedInvalidArgument s t)

/-- 44_selector.md rule R162: every command with an engine operand treats an alias exactly as the real id the selector
chose. -/
def Obligations.AliasActsAsTheRealEngine : Prop :=
  ∀ (s : State), ∀ c ∈ engineCommands,
    exec (c 14#4) s = exec (c 0#4) s ∧
    exec (c 15#4) s = exec (c (if s.plat.capN && s.plat.capW then 4#4 else if s.plat.capN then 3#4 else 1#4)) s

/-! ## The checksum contract: COMP and COMPF -/

/-- 40_contract.md rules R95, R103: COMP on an existing, supported engine, over a buffer whose arguments are good and whose
bytes are readable, completes with the checksum the bit-at-a-time reference computes with the engine's polynomial. -/
def Obligations.CompComputesTheReferenceChecksum : Prop :=
  ∀ (s : State) (e : EngId) (k : Engine), IssuerExists s → TablesBuilt s → target s e = some k →
    supported s.plat k = true → ArgsGood s → BufferReadable s →
    ∃ t, exec (.comp e) s = .next t ∧ Completed (crcRef (polyOf s k) 0#32 (bufferBytes s)) s t ∧
      TableMadeValid k s t ∧ CommandFrame s t

/-- 40_contract.md rule R103: COMPF the same, from the seed `PREV[31:0]`; `PREV[63:32]` is ignored (rule R96). The table and
frame clauses are rules R96 and R100. -/
def Obligations.CompfContinuesTheReferenceChecksum : Prop :=
  ∀ (s : State) (e : EngId) (k : Engine), IssuerExists s → TablesBuilt s → target s e = some k →
    supported s.plat k = true → ArgsGood s → BufferReadable s →
    ∃ t, exec (.compf e) s = .next t ∧
      Completed (crcRef (polyOf s k) (BitVec.ofNat 32 s.port.prev.toNat) (bufferBytes s)) s t ∧
      TableMadeValid k s t ∧ CommandFrame s t

/-- 20_memory.md rule R58, 60_exceptions.md rule R182: a COMP or COMPF whose checks pass and whose buffer holds an unreadable
byte changes nothing but that its port is stuck (as the model records it, log entry 6); a stuck port's accesses do not
take place. -/
def Obligations.UnreadableByteLeavesThePortStuck : Prop :=
  (∀ (s : State) (e : EngId) (k : Engine), target s e = some k → supported s.plat k = true → ArgsGood s →
    ¬ BufferReadable s →
    (∃ t, exec (.comp e) s = .next t ∧ BecameStuck s t) ∧ (∃ t, exec (.compf e) s = .next t ∧ BecameStuck s t)) ∧
  (∀ (s : State) (p : Nat) (q : Port) (op : HostOp) (rest : List Event), s.events = .access p op :: rest →
    s.ports[p]? = some q → q.stuck = true → step s = .next { s with events := rest })

/-- 40_contract.md rule R104: over the empty buffer COMP returns 0 on every supported engine, wherever `PTR` points and
whatever is readable. -/
def Obligations.EmptyBufferGivesZero : Prop :=
  ∀ (s : State) (e : EngId) (k : Engine), IssuerExists s → target s e = some k → supported s.plat k = true →
    s.port.len = 0#64 → ∃ t, exec (.comp e) s = .next t ∧ Completed 0#32 s t

/-- 40_contract.md rule R101: COMP and COMPF with `PREV[31:0] = 0` end in the same state. -/
def Obligations.CompIsCompfFromZero : Prop :=
  ∀ (s : State) (e : EngId), s.port.prev.toNat % 2 ^ 32 = 0 → exec (.comp e) s = exec (.compf e) s

/-- 40_contract.md rule R102, the chaining law, for every engine, seed, buffer and split point. -/
def Obligations.ChecksumsChainAtAnySplit : Prop :=
  ∀ (s : State) (k : Engine) (seed : Word) (a n m : Nat), TablesBuilt s → engineExists s k = true →
    engineFold (needTable k s) k seed a (n + m) =
      engineFold (needTable k s) k (engineFold (needTable k s) k seed a n) (a + n) m

/-- 40_contract.md rule R105: engines 1, 3 and 4 agree on every seed and buffer, and engine 2 agrees with the engines of its
polynomial. -/
def Obligations.EnginesOfOnePolynomialAgree : Prop :=
  ∀ (s : State) (seed : Word) (a n : Nat), TablesBuilt s →
    engineFold (needTable .gen32c s) .gen32c seed a n = engineFold s .hwn seed a n ∧
    engineFold s .hwn seed a n = engineFold s .hww seed a n ∧
    (s.slot2.valid = true → s.cpoly = 0xEDB88320#32 →
      engineFold s .gencu seed a n = engineFold (needTable .gen32 s) .gen32 seed a n) ∧
    (s.slot2.valid = true → s.cpoly = 0x82F63B78#32 → engineFold s .gencu seed a n = engineFold s .hwn seed a n)

/-- 40_contract.md rule R108: the checksum depends on the buffer's bytes and length, not on where the buffer lies, whatever
the tables hold. -/
def Obligations.ChecksumDependsOnTheBytesOnly : Prop :=
  ∀ (s : State) (k : Engine) (seed : Word) (m m' : Memory) (a a' n : Nat),
    (∀ i < n, Memory.read m (a + i) = Memory.read m' (a' + i)) →
    engineFold { s with mem := m } k seed a n = engineFold { s with mem := m' } k seed a' n

/-- 20_memory.md rule R53, as the model records it (log entry 13: the list of addresses read is the model's own, kept beside
the loads): whichever engine runs, a fold records every byte of its buffer exactly once and no other, in ascending
order, and ends with every byte folded. -/
def Obligations.FoldReadsEachByteOnceInOrder : Prop :=
  ∀ (t : Table) (m : Memory) (seed : Word) (a n : Nat),
    ((genRun t m seed a n).reads = List.range' a n ∧ (genRun t m seed a n).pos = n) ∧
    ((hwnRun m seed a n).reads = List.range' a n ∧ (hwnRun m seed a n).pos = n) ∧
    ((hwwRun m seed a n).reads = List.range' a n ∧ (hwwRun m seed a n).pos = n)

/-- 40_contract.md rule R106, 60_exceptions.md rule R185: the outcome on the issuing port is a function of that port, the
configuration, the bytes of memory and the custom engine: not of other ports, of earlier commands, or of which
well-known tables are already built. -/
def Obligations.OutcomeIgnoresPortsAndBuiltTables : Prop :=
  ∀ (v : Reg) (s s' t t' : State), IssuerExists s → IssuerExists s' → TablesBuilt s → TablesBuilt s' →
    s.port = s'.port → s.plat = s'.plat → (∀ a, Memory.read s.mem a = Memory.read s'.mem a) → s.slot2 = s'.slot2 →
    s.cpoly = s'.cpoly → command v s = .next t → command v s' = .next t' →
    t.port = t'.port ∧ t.slot2 = t'.slot2 ∧ t.cpoly = t'.cpoly

/-! ## The table builder: build, TBUILD, TREAD -/

/-- 41_table_builder.md rules R111 to R113: column 0 is 8 shift steps on the row; column `j + 1` is one table step on column
`j`, through column 0. -/
def Obligations.BuildFollowsItsTwoColumnRules : Prop :=
  ∀ (p : Word) (i : Byte),
    Table.entry (build p) 0 i = times (fun c => if c.getLsbD 0 then (c >>> 1) ^^^ p else c >>> 1) 8 (i.setWidth 32) ∧
    ∀ (j j' : Fin Config.ncol), j'.val = j.val + 1 →
      Table.entry (build p) j' i =
        (Table.entry (build p) j i >>> 8) ^^^ Table.entry (build p) 0 ((Table.entry (build p) j i).setWidth 8)

/-- 41_table_builder.md rule R114: `T[j][i]` is `Z^j(T[0][i])`, and is what the accumulator becomes when the byte `i` and then
`j` zero bytes are folded from 0. -/
def Obligations.EntryIsTheEffectOfItsByteLater : Prop :=
  ∀ (p : Word) (j : Fin Config.ncol) (i : Byte),
    Table.entry (build p) j i =
      times (fun c : Word => (c >>> 8) ^^^ Table.entry (build p) 0 (c.setWidth 8)) j.val (Table.entry (build p) 0 i) ∧
    Table.entry (build p) j i = times (fun c => tableByte (build p) c 0#8) j.val (tableByte (build p) 0#32 i)

/-- 41_table_builder.md rule R115: every column is linear in the row index, the byte step with a zero byte is linear, and
`T[0][0x80]` is the polynomial. -/
def Obligations.TablesAreLinear : Prop :=
  ∀ p : Word,
    (∀ j : Fin Config.ncol, Table.entry (build p) j 0#8 = 0#32) ∧
    (∀ (j : Fin Config.ncol) (a b : Byte),
      Table.entry (build p) j (a ^^^ b) = Table.entry (build p) j a ^^^ Table.entry (build p) j b) ∧
    (∀ c d : Word, tableByte (build p) (c ^^^ d) 0#8 = tableByte (build p) c 0#8 ^^^ tableByte (build p) d 0#8) ∧
    Table.entry (build p) 0 0x80#8 = p

/-- 41_table_builder.md rule R118: TBUILD constructs the custom engine for `DATA[31:0]`, any polynomial; `RES` keeps its
value. -/
def Obligations.TbuildConstructsTheCustomEngine : Prop :=
  ∀ s : State, IssuerExists s → ∃ t, exec .tbuild s = .next t ∧
    t.slot2.valid = true ∧ t.slot2.table = build (BitVec.ofNat 32 s.port.data.toNat) ∧
    t.cpoly = BitVec.ofNat 32 s.port.data.toNat ∧ t.slot0 = s.slot0 ∧ t.slot1 = s.slot1 ∧
    t.port.res = s.port.res ∧ errField t.port.status = 0#2 ∧ StickyKept s t ∧ CommandFrame s t

/-- 41_table_builder.md rule R119, 30_encoding.md rule R80: TREAD on a generic engine returns the entry in the column and row
of `DATA`; it raises InvalidArgument for no such engine, a hardware engine, or a column above 23. -/
def Obligations.TreadReturnsTheEntry : Prop :=
  ∀ (s : State) (e : EngId), IssuerExists s → TablesBuilt s →
    (∀ k, target s e = some k → ¬ StandsForHardware s.plat e → ∀ h : treadColumn s < Config.ncol,
      ∃ t, exec (.tread e) s = .next t ∧
        Completed (Table.entry (build (polyOf s k)) ⟨treadColumn s, h⟩ (treadRow s)) s t ∧
        TableMadeValid k s t ∧ CommandFrame s t) ∧
    (NoSuchEngine s e ∨ StandsForHardware s.plat e ∨ 24 ≤ treadColumn s →
      ∃ t, exec (.tread e) s = .next t ∧ RaisedInvalidArgument s t ∧ TableStoreKept s t ∧ CommandFrame s t)

/-! ## The folds -/

/-- 42_slice_engine.md rule R134: with a built table one block step equals 24 byte steps, and the whole fold equals the
byte-at-a-time fold and the reference. -/
def Obligations.BlockStepEqualsTwentyFourByteSteps : Prop :=
  ∀ (p : Word) (m : Memory) (a : Nat),
    (∀ x : Transient, blockStep (build p) m a x = times (byteStep (build p) m a) 24 x) ∧
    (∀ (seed : Word) (n : Nat),
      genFold (build p) m seed a n = ~~~((memRead m a n).foldl (tableByte (build p)) (~~~seed)) ∧
      genFold (build p) m seed a n = crcRef p seed (memRead m a n))

/-- 43_hw_engine.md rule R155: both hardware folds equal the byte-at-a-time fold of the 8-bit step, the generic fold for
CRC-32C, and the reference. -/
def Obligations.HardwareFoldsEqualTheByteFold : Prop :=
  ∀ (m : Memory) (seed : Word) (a n : Nat),
    hwnFold m seed a n = ~~~((memRead m a n).foldl crc32cStep8 (~~~seed)) ∧
    hwwFold m seed a n = ~~~((memRead m a n).foldl crc32cStep8 (~~~seed)) ∧
    hwnFold m seed a n = genFold (build 0x82F63B78#32) m seed a n ∧
    hwnFold m seed a n = crcRef 0x82F63B78#32 seed (memRead m a n)

/-- 43_hw_engine.md rule R142: the 8-bit step is 8 shift steps with CRC-32C's polynomial, and is the table byte step of the
generic CRC-32C engine. -/
def Obligations.ByteStepIsTheTableByteStep : Prop :=
  ∀ (s : Word) (v : Byte),
    crc32cStep8 s v =
      times (fun c => if c.getLsbD 0 then (c >>> 1) ^^^ 0x82F63B78#32 else c >>> 1) 8 (s ^^^ v.setWidth 32) ∧
    crc32cStep8 s v = (s >>> 8) ^^^ Table.entry (build 0x82F63B78#32) 0 (s.setWidth 8 ^^^ v)

/-- 43_hw_engine.md rules R143 to R145: the wider steps are chains of 8-bit steps, least significant byte first; the 32-bit
step is also 32 shift steps on `s ^ v`. -/
def Obligations.WideStepsAreByteChains : Prop :=
  (∀ (s : Word) (v : BitVec 16), crc32cStep16 s v = ((List.range 2).map (byteOf v)).foldl crc32cStep8 s) ∧
  (∀ (s : Word) (v : Word), crc32cStep32 s v = ((List.range 4).map (byteOf v)).foldl crc32cStep8 s ∧
    crc32cStep32 s v = times (fun c => if c.getLsbD 0 then (c >>> 1) ^^^ 0x82F63B78#32 else c >>> 1) 32 (s ^^^ v)) ∧
  (∀ (s : Word) (v : Reg), crc32cStep64 s v = ((List.range 8).map (byteOf v)).foldl crc32cStep8 s ∧
    crc32cStep64 s v = crc32cStep32 (crc32cStep32 s (v.setWidth 32)) ((v >>> 32).setWidth 32))

/-! ## CSTEP -/

/-- 43_hw_engine.md rules R146 to R148, 30_encoding.md rule R81: CSTEP.B, .H, .W fold the low 1, 2, 4 bytes of `DATA` into
`PREV[31:0]` without complement when `CAP_N` is present, and raise NotSupported when it is not. -/
def Obligations.NarrowCstepsFoldTheLowBytesOfData : Prop :=
  ∀ s : State, IssuerExists s → ∀ c ∈ [(Instr.cstepB, 1), (Instr.cstepH, 2), (Instr.cstepW, 4)],
    (s.plat.capN = true → ∃ t, exec c.1 s = .next t ∧
      Completed ((dataBytes s c.2).foldl (refByte 0x82F63B78#32) (BitVec.ofNat 32 s.port.prev.toNat)) s t ∧
      TableStoreKept s t ∧ CommandFrame s t) ∧
    (s.plat.capN = false → ∃ t, exec c.1 s = .next t ∧ RaisedNotSupported s t ∧ TableStoreKept s t ∧ CommandFrame s t)

/-- 43_hw_engine.md rule R149: CSTEP.D folds the eight bytes of `DATA` when both capabilities are present, and raises
NotSupported otherwise. -/
def Obligations.WideCstepFoldsAllOfData : Prop :=
  ∀ s : State, IssuerExists s →
    (s.plat.capN = true → s.plat.capW = true → ∃ t, exec .cstepD s = .next t ∧
      Completed ((dataBytes s 8).foldl (refByte 0x82F63B78#32) (BitVec.ofNat 32 s.port.prev.toNat)) s t ∧
      TableStoreKept s t ∧ CommandFrame s t) ∧
    (s.plat.capN = false ∨ s.plat.capW = false → ∃ t, exec .cstepD s = .next t ∧ RaisedNotSupported s t ∧
      TableStoreKept s t ∧ CommandFrame s t)

/-! ## Ports and memory -/

/-- 60_exceptions.md rule R182, 93_implementation_defined.md U16: a stuck port issues nothing more and is stuck for good: no
step changes anything of it. (How the model records it is log entry 6.) -/
def Obligations.StuckPortStaysAsItIs : Prop :=
  ∀ (s t : State) (p : Nat) (q : Port), step s = .next t → s.ports[p]? = some q → q.stuck = true → t.ports[p]? = some q

/-- 10_state.md rule R32, 60_exceptions.md rule R185: an access or command of one port changes no register of another. -/
def Obligations.PortsReachOnlyTheirOwnRegisters : Prop :=
  ∀ (s t : State) (p q : Nat) (rest : List Event), q ≠ p → step s = .next t →
    ((∃ op, s.events = .access p op :: rest) ∨ (∃ v held draws, s.events = .race p v held draws :: rest)) →
    t.ports[q]? = s.ports[q]?

/-- 60_exceptions.md rules R184, R185: two commands of different ports, neither a TBUILD, end in the same state whichever
comes first (but for the number of the port served last, the model's own field). -/
def Obligations.CommandsOfDifferentPortsCommute : Prop :=
  ∀ (s : State) (p q : Nat) (x y : Port) (v w : Reg) (rest : List Event), p ≠ q → TablesBuilt s →
    s.ports[p]? = some x → s.ports[q]? = some y → x.stuck = false → y.stuck = false →
    decode v ≠ .instr .tbuild → decode w ≠ .instr .tbuild →
    ∃ t u, core.run 2 { s with events := .access p (.write 7 v) :: .access q (.write 7 w) :: rest } = .next t ∧
      core.run 2 { s with events := .access q (.write 7 w) :: .access p (.write 7 v) :: rest } = .next u ∧
      { t with cur := 0 } = { u with cur := 0 }

/-- A byte another agent writes between commands is the byte read there afterwards, every other byte is as before, and
nothing of the block changes. The write as an act of its own is the model's (log entry 8), and so is the canonical form
it starts from (log entry 2); 20_memory.md rule R57 says that buffer memory is ordinary memory. -/
def Obligations.MemoryWriteIsReadBack : Prop :=
  ∀ (s : State) (a : Reg) (b : Byte) (rest : List Event), s.events = .memWrite a b :: rest → Memory.wf s.mem = true →
    ∃ t, step s = .next t ∧ Memory.read t.mem a.toNat = b ∧
      (∀ x, x ≠ a.toNat → Memory.read t.mem x = Memory.read s.mem x) ∧
      t.ports = s.ports ∧ TableStoreKept s t ∧ t.plat = s.plat ∧ t.events = rest ∧ t.cur = s.cur

/-- The canonical form (the model's own, log entry 2) does its work: two canonical memories that read the same at every 64-bit address are equal. -/
def Obligations.CanonicalMemoriesAreDeterminedByTheirBytes : Prop :=
  ∀ m m' : Memory, Memory.wf m = true → Memory.wf m' = true →
    (∀ a < 2 ^ 64, Memory.read m a = Memory.read m' a) → m = m'

/-- 20_memory.md rule R62, 93_implementation_defined.md U8: when other agents write during a command, the command runs on
bytes each of which is the one before it or one written during it, and afterwards the writes have landed and nothing
else differs. How the model records a race is its own (log entry 8). -/
def Obligations.RacedCommandSeesOnlyHeldBytes : Prop :=
  ∀ (s : State) (p : Nat) (q : Port) (v : Reg) (held draws : List (Reg × Byte)) (rest : List Event),
    s.events = .race p v held draws :: rest → s.ports[p]? = some q → q.stuck = false → Memory.wf s.mem = true →
    (∀ d ∈ draws, Memory.read s.mem d.1.toNat = d.2 ∨ d ∈ held) →
    ∃ m t, command v { served s p rest with mem := m } = .next t ∧
      step s = .next { t with mem := Memory.writeAll s.mem held } ∧
      ∀ x, Memory.read m x = Memory.read s.mem x ∨ ∃ d ∈ held, d.1.toNat = x ∧ d.2 = Memory.read m x
end

