-- ==== Sys2Proof/Laws/State.lean ====
section
/-!
SUPPORT. The small lemmas of State: what each update leaves, and the ends of a command as next states.
-/

namespace Sys2Proof.Machine

variable (s : State) (p : Port) (f : EzFault) (r : Word)

@[simp] theorem setPort_plat : (s.setPort p).plat = s.plat := rfl
@[simp] theorem setPort_ports : (s.setPort p).ports = s.ports.set s.cur p := rfl
@[simp] theorem setPort_slot0 : (s.setPort p).slot0 = s.slot0 := rfl
@[simp] theorem setPort_slot1 : (s.setPort p).slot1 = s.slot1 := rfl
@[simp] theorem setPort_slot2 : (s.setPort p).slot2 = s.slot2 := rfl
@[simp] theorem setPort_cpoly : (s.setPort p).cpoly = s.cpoly := rfl
@[simp] theorem setPort_mem : (s.setPort p).mem = s.mem := rfl
@[simp] theorem setPort_events : (s.setPort p).events = s.events := rfl
@[simp] theorem setPort_cur : (s.setPort p).cur = s.cur := rfl

/-- The port just written is read back, if it exists. -/
theorem port_setPort (h : IssuerExists s) : (s.setPort p).port = p := by
  simp [State.port, IssuerExists, List.getD_eq_getElem?_getD, List.getElem?_set_self h] at *

/-- The issuing port is one of the ports. -/
theorem port_mem (h : IssuerExists s) : s.port ∈ s.ports := by
  rw [show s.port = s.ports[s.cur] by simp [State.port, List.getD_eq_getElem?_getD, List.getElem?_eq_getElem h]]
  exact List.getElem_mem h

/-- An issuing port that exists is found where `cur` says. -/
theorem getElem?_cur (h : IssuerExists s) : s.ports[s.cur]? = some s.port := by
  simp [State.port, List.getD_eq_getElem?_getD, List.getElem?_eq_getElem h]

@[simp] theorem issuerExists_setPort : IssuerExists (s.setPort p) ↔ IssuerExists s := by
  simp [IssuerExists]

theorem otherPortsKept_setPort : OtherPortsKept s (s.setPort p) := by
  refine ⟨by simp, fun q hq => ?_⟩
  simp [List.getElem?_set_ne (Ne.symm hq)]

theorem raise_next : raise f s = .next (s.withFault f) := rfl
theorem complete_next : complete r s = .next (s.withResult r) := rfl
theorem completeQuietly_next : completeQuietly s = .next s.withOk := rfl
theorem stall_next : stall s = .next s.withStuck := rfl

theorem withFault_eq : s.withFault f = s.setPort { s.port with status := statusFault f s.port.status } := rfl
theorem withResult_eq :
    s.withResult r = s.setPort { s.port with res := r.setWidth 64, status := statusOk s.port.status } := rfl
theorem withOk_eq : s.withOk = s.setPort { s.port with status := statusOk s.port.status } := rfl
theorem withStuck_eq : s.withStuck = s.setPort { s.port with stuck := true } := rfl

end Sys2Proof.Machine
end

