-- ==== Sys2Proof/Laws/Flags.lean ====
section
/-!
SUPPORT. The fields of STATUS after a command (10_state.md rule R28; 60_exceptions.md rule R172).
-/

namespace Sys2Proof.Machine

variable (st : Reg) (f : EzFault)

theorem errField_statusOk : errField (statusOk st) = 0#2 := by
  unfold errField statusOk setErr; ext i hi; interval_cases i <;> simp

theorem statusOk_keeps : statusOk st &&& ~~~3#64 = st &&& ~~~3#64 := by
  unfold statusOk setErr; simp [BitVec.and_assoc]

theorem errField_statusFault : errField (statusFault f st) = errCode f := by
  cases f <;> (unfold errField statusFault setErr; ext i hi; interval_cases i <;> simp [errCode, stickyBit])

theorem snsField_statusFault : snsField (statusFault f st) = (f == .notSupported || snsField st) := by
  cases f <;> simp [snsField, statusFault, setErr, errCode, stickyBit]

theorem siaField_statusFault : siaField (statusFault f st) = (f == .invalidArgument || siaField st) := by
  cases f <;> simp [siaField, statusFault, setErr, errCode, stickyBit]

theorem statusFault_keeps : statusFault f st &&& ~~~0x33#64 = st &&& ~~~0x33#64 := by
  cases f <;> (unfold statusFault setErr; ext i hi; simp [errCode, stickyBit]; interval_cases i <;> simp)

end Sys2Proof.Machine
end

