-- ==== Sys2Proof/Laws/Ends.lean ====
section
/-!
SUPPORT. What each end of a command leaves, in the terms of Safety.lean: one lemma per end.
-/

namespace Sys2Proof.Machine

variable {s : State}

/-- A fault of kind NotSupported (60_exceptions.md rule R172). -/
theorem withFault_notSupported (h : IssuerExists s) : RaisedNotSupported s (s.withFault .notSupported) := by
  rw [withFault_eq, RaisedNotSupported, port_setPort _ _ h]
  exact ⟨errField_statusFault _ _, by simp [snsField_statusFault], by simp [siaField_statusFault],
    statusFault_keeps _ _, rfl⟩

/-- A fault of kind InvalidArgument (60_exceptions.md rule R172). -/
theorem withFault_invalidArgument (h : IssuerExists s) : RaisedInvalidArgument s (s.withFault .invalidArgument) := by
  rw [withFault_eq, RaisedInvalidArgument, port_setPort _ _ h]
  exact ⟨errField_statusFault _ _, by simp [siaField_statusFault], by simp [snsField_statusFault],
    statusFault_keeps _ _, rfl⟩

/-- A fault leaves all but STATUS (60_exceptions.md rule R176). -/
theorem withFault_frame (f : EzFault) (h : IssuerExists s) :
    TableStoreKept s (s.withFault f) ∧ CommandFrame s (s.withFault f) := by
  refine ⟨⟨rfl, rfl, rfl, rfl⟩, ?_, otherPortsKept_setPort s _, rfl, fun _ => rfl, rfl, rfl⟩
  rw [withFault_eq, OperandsKept, port_setPort _ _ h]
  exact ⟨rfl, rfl, rfl, rfl, rfl, rfl⟩

/-- A completed command (10_state.md rules R26, R28). -/
theorem withResult_completed (r : Word) (h : IssuerExists s) : Completed r s (s.withResult r) := by
  rw [withResult_eq, Completed, StickyKept, port_setPort _ _ h]
  exact ⟨rfl, errField_statusOk _, statusOk_keeps _⟩

/-- A completed command leaves all but RES and STATUS of what it was completed on. -/
theorem withResult_frame (r : Word) (h : IssuerExists s) :
    TableStoreKept s (s.withResult r) ∧ CommandFrame s (s.withResult r) := by
  refine ⟨⟨rfl, rfl, rfl, rfl⟩, ?_, otherPortsKept_setPort s _, rfl, fun _ => rfl, rfl, rfl⟩
  rw [withResult_eq, OperandsKept, port_setPort _ _ h]
  exact ⟨rfl, rfl, rfl, rfl, rfl, rfl⟩

/-- A command with no step (60_exceptions.md rule R182). -/
theorem withStuck_becameStuck : BecameStuck s s.withStuck :=
  ⟨rfl, ⟨rfl, rfl, rfl, rfl⟩, rfl, fun _ => rfl, rfl, rfl⟩

end Sys2Proof.Machine
end

