-- ==== Sys2Proof/Laws/Memory.lean ====
section
/-!
SUPPORT. Buffer memory: every write keeps the canonical form, and a read after a write. (20_memory.md rules R50 to R54.)
-/

namespace Sys2Proof.Machine

@[simp] theorem read_nil (a : Nat) : Memory.read [] a = unlistedByte := rfl

theorem read_cons (k : Nat) (b : Byte) (rest : Memory) (a : Nat) :
    Memory.read ((k, b) :: rest) a = if k = a then b else Memory.read rest a := rfl

theorem wfFrom_cons {lo k : Nat} {b : Byte} {rest : Memory} :
    Memory.wfFrom lo ((k, b) :: rest) = true ↔
      lo ≤ k ∧ k < 2 ^ 64 ∧ b ≠ unlistedByte ∧ Memory.wfFrom (k + 1) rest = true := by
  simp [Memory.wfFrom, and_assoc]

theorem wfFrom_mono {lo lo' : Nat} (h : lo' ≤ lo) : ∀ {m : Memory}, Memory.wfFrom lo m = true → Memory.wfFrom lo' m = true
  | [], _ => rfl
  | (k, b) :: rest, hw => by
    rw [wfFrom_cons] at hw ⊢
    exact ⟨h.trans hw.1, hw.2⟩

/-- An address below every entry is not listed. -/
theorem read_below {lo : Nat} : ∀ {m : Memory} {a : Nat}, Memory.wfFrom lo m = true → a < lo → Memory.read m a = unlistedByte
  | [], _, _, _ => rfl
  | (k, b) :: rest, a, hw, ha => by
    rw [wfFrom_cons] at hw
    rw [read_cons, if_neg (by omega)]
    exact read_below hw.2.2.2 (by omega)

theorem put_wf {lo a : Nat} {b : Byte} {rest : Memory} (hlo : lo ≤ a) (ha : a < 2 ^ 64)
    (hr : Memory.wfFrom (a + 1) rest = true) : Memory.wfFrom lo (Memory.put a b rest) = true := by
  unfold Memory.put
  split
  · exact wfFrom_mono (by omega) hr
  · exact wfFrom_cons.2 ⟨hlo, ha, ‹_›, hr⟩

theorem write_wfFrom {a : Nat} {b : Byte} (ha : a < 2 ^ 64) :
    ∀ {lo : Nat} {m : Memory}, lo ≤ a → Memory.wfFrom lo m = true → Memory.wfFrom lo (Memory.write m a b) = true
  | lo, [], hlo, _ => put_wf hlo ha rfl
  | lo, (k, c) :: rest, hlo, hw => by
    have h := wfFrom_cons.1 hw
    unfold Memory.write
    split
    · exact put_wf hlo ha (wfFrom_cons.2 ⟨by omega, h.2⟩)
    · split
      · exact put_wf hlo ha (by simpa [‹a = k›] using h.2.2.2)
      · exact wfFrom_cons.2 ⟨h.1, h.2.1, h.2.2.1, write_wfFrom ha (by omega) h.2.2.2⟩

/-- A byte write keeps the canonical form. -/
theorem write_wf {m : Memory} (a : Reg) (b : Byte) (h : Memory.wf m = true) : Memory.wf (Memory.write m a.toNat b) = true :=
  write_wfFrom a.isLt (Nat.zero_le _) h

/-- A list of byte writes keeps the canonical form. -/
theorem writeAll_wf (ws : List (Reg × Byte)) : ∀ {m : Memory}, Memory.wf m = true → Memory.wf (Memory.writeAll m ws) = true := by
  induction ws with
  | nil => exact id
  | cons w ws ih => exact fun h => ih (write_wf w.1 w.2 h)

theorem read_put {a : Nat} {b : Byte} {rest : Memory} (hr : Memory.wfFrom (a + 1) rest = true) (x : Nat) :
    Memory.read (Memory.put a b rest) x = if x = a then b else Memory.read rest x := by
  unfold Memory.put
  split
  · split
    · rw [‹x = a›, read_below hr (by omega), ‹b = _›]
    · rfl
  · rw [read_cons]; simp [eq_comm]

theorem read_writeFrom {a : Nat} {b : Byte} (x : Nat) :
    ∀ {lo : Nat} {m : Memory}, Memory.wfFrom lo m = true →
      Memory.read (Memory.write m a b) x = if x = a then b else Memory.read m x
  | _, [], _ => read_put rfl x
  | lo, (k, c) :: rest, hw => by
    have h := wfFrom_cons.1 hw
    unfold Memory.write
    split
    · exact read_put (wfFrom_cons.2 ⟨by omega, h.2⟩) x
    · split
      · subst ‹a = k›
        rw [read_put h.2.2.2, read_cons]
        by_cases hx : x = a <;> simp [hx, Ne.symm]
      · rw [read_cons, read_cons, read_writeFrom x h.2.2.2]
        by_cases hx : k = x <;> simp [hx]
        intro hxa; omega

/-- A read after a write of a canonical memory: the byte written, or what was there. -/
theorem read_write {m : Memory} (h : Memory.wf m = true) (a : Nat) (b : Byte) (x : Nat) :
    Memory.read (Memory.write m a b) x = if x = a then b else Memory.read m x := read_writeFrom x h

theorem memRead_length (m : Memory) : ∀ (n a : Nat), (memRead m a n).length = n
  | 0, _ => rfl
  | n + 1, a => by simp [memRead, memRead_length m n (a + 1)]

/-- A buffer read splits at any point. -/
theorem memRead_add (m : Memory) : ∀ (n k a : Nat), memRead m a (n + k) = memRead m a n ++ memRead m (a + n) k
  | 0, k, a => by simp [memRead]
  | n + 1, k, a => by
    rw [Nat.succ_add, memRead, memRead, memRead_add m n k (a + 1)]
    simp [Nat.add_comm, Nat.add_left_comm]

/-- A buffer read depends on the bytes of its own addresses only. -/
theorem memRead_congr {m m' : Memory} : ∀ {n a a' : Nat},
    (∀ i < n, Memory.read m (a + i) = Memory.read m' (a' + i)) → memRead m a n = memRead m' a' n
  | 0, _, _, _ => rfl
  | n + 1, a, a', h => by
    have h0 := h 0 (Nat.succ_pos n)
    have ht : memRead m (a + 1) n = memRead m' (a' + 1) n :=
      memRead_congr fun i hi => by simpa [Nat.add_assoc, Nat.add_comm 1] using h (i + 1) (Nat.succ_lt_succ hi)
    simp [memRead, ht]; simpa using h0

end Sys2Proof.Machine
end

