-- ==== Sys2Proof/Laws/Engines.lean ====
section
/-!
SUPPORT. The small lemmas of the engines' own functions: iteration, table entries, words as bytes.
-/

namespace Sys2Proof.Machine

@[simp] theorem times_zero {α : Type} (f : α → α) (x : α) : times f 0 x = x := rfl

theorem times_succ {α : Type} (f : α → α) (n : Nat) (x : α) : times f (n + 1) x = times f n (f x) := rfl

theorem times_add {α : Type} (f : α → α) : ∀ (n k : Nat) (x : α), times f (n + k) x = times f k (times f n x)
  | 0, k, x => by simp
  | n + 1, k, x => by rw [Nat.succ_add, times_succ, times_succ, times_add f n k]

/-- An entry of a built table is what the builder computes for it (41_table_builder.md rule R111). -/
theorem entry_build (p : Word) (j : Fin Config.ncol) (i : Byte) : Table.entry (build p) j i = buildEntry p j.val i := by
  simp [Table.entry, build]

/-- A byte of a word loaded from memory is the byte at its address (20_memory.md rule R54). -/
theorem loadWord_toNat (m : Memory) (a : Nat) :
    (loadWord m a).toNat = (Memory.read m a).toNat + 256 * ((Memory.read m (a + 1)).toNat
      + 256 * ((Memory.read m (a + 2)).toNat + 256 * (Memory.read m (a + 3)).toNat)) := by
  have h0 := (Memory.read m a).isLt
  have h1 := (Memory.read m (a + 1)).isLt
  have h2 := (Memory.read m (a + 2)).isLt
  have h3 := (Memory.read m (a + 3)).isLt
  simp only [loadWord, memRead, leNat, Nat.add_assoc, BitVec.toNat_ofNat, Nat.reduceAdd]
  omega

end Sys2Proof.Machine
end

