-- ==== Sys2Proof/Laws/Ops.lean ====
section
/-!
SUPPORT. What each shared operation can do, said once; the provers cite these instead of unfolding the operation.
-/

namespace Sys2Proof.Machine

variable {s t : State} {e : EngId}

/-- `target` answers an engine that `resolve` names and that exists. -/
theorem target_some {k : Engine} : target s e = some k ↔ resolve s.plat e = some k ∧ engineExists s k = true := by
  unfold target
  cases h : resolve s.plat e with
  | none => simp
  | some j =>
    by_cases hj : engineExists s j = true
    · simp only [hj, if_true, Option.some.injEq]
      exact ⟨fun h' => ⟨h', h' ▸ hj⟩, fun h' => h'.1⟩
    · simp only [hj, Option.some.injEq]
      exact ⟨fun h' => by simp at h', fun h' => absurd (h'.1 ▸ h'.2) hj⟩

/-- The argument checks, as one condition (40_contract.md rule R99). -/
theorem argsOk_iff (a n : Reg) :
    argsOk a n = true ↔ n.toNat < 2 ^ 63 ∧ (a.toNat = 0 → n.toNat = 0) ∧ a.toNat + n.toNat ≤ 2 ^ 64 := by
  have h63 : n.getLsbD 63 = true ↔ 2 ^ 63 ≤ n.toNat := by
    have := BitVec.msb_eq_true_iff_two_mul_ge (x := n)
    rw [show n.getLsbD 63 = n.msb by simp [BitVec.msb, BitVec.getMsbD], this]; omega
  unfold argsOk
  rcases Nat.lt_or_ge n.toNat (2 ^ 63) with h | h
  · have hf : n.getLsbD 63 = false := by
      rw [← Bool.not_eq_true, h63]; omega
    rw [hf]
    simp [BitVec.toNat_eq]
    by_cases ha : a.toNat = 0 <;> by_cases hn : n.toNat = 0 <;> (simp [ha, hn]; try omega)
  · rw [h63.2 h]; simp; omega

/-- A buffer of readable bytes, by ranges or byte by byte (20_memory.md rule R58). -/
theorem bufferReadable_iff (p : Platform) (a n : Nat) :
    bufferReadable p a n = true ↔ ∀ i < n, readable p (a + i) = true := by
  simp only [bufferReadable, readable, List.all_eq_true, Region.meets, Bool.not_eq_true', decide_eq_false_iff_not,
    Bool.and_eq_false_iff]
  constructor
  · intro h i hi r hr
    have := h r hr
    rcases Nat.lt_or_ge (a + i) r.base with h1 | h1
    · exact Or.inl (by omega)
    · exact Or.inr (by omega)
  · intro h r hr hm
    rcases h (max r.base a - a) (by omega) r hr with h1 | h1 <;> omega

@[simp] theorem needTable_plat (k : Engine) : (needTable k s).plat = s.plat := by cases k <;> rfl
@[simp] theorem needTable_ports (k : Engine) : (needTable k s).ports = s.ports := by cases k <;> rfl
@[simp] theorem needTable_cur (k : Engine) : (needTable k s).cur = s.cur := by cases k <;> rfl
@[simp] theorem needTable_mem (k : Engine) : (needTable k s).mem = s.mem := by cases k <;> rfl
@[simp] theorem needTable_events (k : Engine) : (needTable k s).events = s.events := by cases k <;> rfl
@[simp] theorem needTable_cpoly (k : Engine) : (needTable k s).cpoly = s.cpoly := by cases k <;> rfl
@[simp] theorem needTable_slot2 (k : Engine) : (needTable k s).slot2 = s.slot2 := by cases k <;> rfl
@[simp] theorem needTable_port (k : Engine) : (needTable k s).port = s.port := by cases k <;> rfl

theorem buildIfNeeded_valid (p : Word) (sl : Slot) : (buildIfNeeded p sl).valid = true := by
  unfold buildIfNeeded; split <;> simp_all

/-- A slot whose valid table is built is, after the lazy build, the valid built table. -/
theorem buildIfNeeded_eq {p : Word} {sl : Slot} (h : sl.valid = true → sl.table = build p) :
    buildIfNeeded p sl = ⟨true, build p⟩ := by
  unfold buildIfNeeded
  split
  · rename_i hv
    cases sl; simp_all
  · rfl

/-- Every way `compute_from` can end. -/
theorem computeFrom_cases (e : EngId) (seed : Word) (s : State) :
    (target s e = none ∧ computeFrom e seed s = raise .invalidArgument s) ∨
    ∃ k, target s e = some k ∧
      ((supported s.plat k = false ∧ computeFrom e seed s = raise .notSupported s) ∨
       (supported s.plat k = true ∧ argsOk s.port.ptr s.port.len = false ∧
          computeFrom e seed s = raise .invalidArgument s) ∨
       (supported s.plat k = true ∧ argsOk s.port.ptr s.port.len = true ∧
          bufferReadable s.plat s.port.ptr.toNat s.port.len.toNat = false ∧ computeFrom e seed s = stall s) ∨
       (supported s.plat k = true ∧ argsOk s.port.ptr s.port.len = true ∧
          bufferReadable s.plat s.port.ptr.toNat s.port.len.toNat = true ∧
          computeFrom e seed s =
            complete (engineFold (needTable k s) k seed s.port.ptr.toNat s.port.len.toNat) (needTable k s))) := by
  unfold computeFrom foldBuffer
  cases target s e with
  | none => exact .inl ⟨rfl, rfl⟩
  | some k =>
    refine .inr ⟨k, rfl, ?_⟩
    cases h1 : supported s.plat k with
    | false => exact .inl ⟨rfl, by simp [h1]⟩
    | true =>
      cases h2 : argsOk s.port.ptr s.port.len with
      | false => exact .inr (.inl ⟨rfl, rfl, by simp [h1]⟩)
      | true =>
        cases h3 : bufferReadable s.plat s.port.ptr.toNat s.port.len.toNat with
        | false => exact .inr (.inr (.inl ⟨rfl, rfl, rfl, by simp [h1]⟩))
        | true => exact .inr (.inr (.inr ⟨rfl, rfl, rfl, by simp [h1]⟩))

/-- Every way TREAD can end once its engine is known. -/
theorem readEntry_cases (k : Engine) (s : State) :
    readEntry k s = raise .invalidArgument s ∨
    ∃ t r, tableOf (needTable k s) k = some t ∧ entryAt t (columnOperand s) (rowOperand s) = some r ∧
      readEntry k s = complete r (needTable k s) := by
  unfold readEntry
  cases h : tableOf (needTable k s) k with
  | none => exact .inl rfl
  | some t =>
    cases h' : entryAt t (columnOperand s) (rowOperand s) with
    | none => exact .inl (by simp [h'])
    | some r => exact .inr ⟨t, r, rfl, h', by simp [h']⟩

/-- Every way a command can end, whatever the command: a fault, a result (with the lazy build of one slot), the
construction of the custom engine, or a stuck port. -/
theorem exec_cases (i : Instr) (s : State) :
    (∃ f, exec i s = raise f s) ∨ (∃ r k, exec i s = complete r (needTable k s)) ∨
    (i = .tbuild ∧ exec i s = completeQuietly (constructCustom (polyOperand s) s)) ∨ exec i s = stall s := by
  have comp : ∀ e seed, (∃ f, computeFrom e seed s = raise f s) ∨
      (∃ r k, computeFrom e seed s = complete r (needTable k s)) ∨ computeFrom e seed s = stall s := by
    intro e seed
    obtain ⟨-, h⟩ | ⟨k, -, ⟨-, h⟩ | ⟨-, -, h⟩ | ⟨-, -, -, h⟩ | ⟨-, -, -, h⟩⟩ := computeFrom_cases e seed s
    · exact .inl ⟨_, h⟩
    · exact .inl ⟨_, h⟩
    · exact .inl ⟨_, h⟩
    · exact .inr (.inr h)
    · exact .inr (.inl ⟨_, _, h⟩)
  have step : ∀ c r, (∃ f, stepIf c r s = raise f s) ∨ ∃ r' k, stepIf c r s = complete r' (needTable k s) := by
    intro c r
    cases c
    · exact .inl ⟨_, rfl⟩
    · exact .inr ⟨r, .gencu, rfl⟩
  cases i with
  | supp e =>
    simp only [exec, execSupp]
    cases target s e with
    | none => exact .inl ⟨_, rfl⟩
    | some k => exact .inr (.inl ⟨_, .gencu, rfl⟩)
  | poly e =>
    simp only [exec, execPoly]
    cases target s e with
    | none => exact .inl ⟨_, rfl⟩
    | some k => exact .inr (.inl ⟨_, .gencu, rfl⟩)
  | comp e => exact (comp e _).imp_right (·.imp_right .inr)
  | compf e => exact (comp e _).imp_right (·.imp_right .inr)
  | sel e =>
    simp only [exec, execSel]
    cases resolve s.plat e with
    | none => exact .inl ⟨_, rfl⟩
    | some k => exact .inr (.inl ⟨_, .gencu, rfl⟩)
  | tbuild => exact .inr (.inr (.inl ⟨rfl, rfl⟩))
  | tread e =>
    simp only [exec, execTread]
    cases target s e with
    | none => exact .inl ⟨_, rfl⟩
    | some k =>
      obtain h | ⟨_, r, -, -, h⟩ := readEntry_cases k s
      · exact .inl ⟨_, h⟩
      · exact .inr (.inl ⟨r, k, h⟩)
  | cstepB => exact (step _ _).imp_right .inl
  | cstepH => exact (step _ _).imp_right .inl
  | cstepW => exact (step _ _).imp_right .inl
  | cstepD => exact (step _ _).imp_right .inl

/-- What a host access as port `p` can do. -/
theorem onPort_cases (p : Nat) (f : State → Result) (s : State) :
    (s.ports.length ≤ p ∧ onPort p f s = .refused .noSuchPort) ∨
    (∃ q, s.ports[p]? = some q ∧ ((q.stuck = true ∧ onPort p f s = .next s) ∨
      (q.stuck = false ∧ onPort p f s = f { s with cur := p }))) := by
  unfold onPort
  rcases Nat.lt_or_ge p s.ports.length with h | h
  · refine .inr ⟨s.ports[p], List.getElem?_eq_getElem h, ?_⟩
    simp only [h, if_true, List.getD_eq_getElem?_getD, List.getElem?_eq_getElem h, Option.getD_some]
    cases s.ports[p].stuck <;> simp
  · exact .inl ⟨h, by simp [Nat.not_lt.2 h]⟩

/-- A command ends in a next state. -/
theorem exec_next (i : Instr) (s : State) : ∃ t, exec i s = .next t := by
  obtain ⟨f, h⟩ | ⟨r, k, h⟩ | ⟨-, h⟩ | h := exec_cases i s <;> exact ⟨_, h⟩

/-- A value written to `CMD` ends in a next state. -/
theorem command_next (v : Reg) (s : State) : ∃ t, command v s = .next t := by
  unfold command
  cases decode v with
  | instr i => exact exec_next i s
  | reserved r => exact ⟨_, rfl⟩

end Sys2Proof.Machine
end

