-- ==== Sys2Proof/Laws/PerInstr.lean ====
section
/-!
SUPPORT. Statements for every command as syntax, one lemma per constructor.
-/

namespace Sys2Proof.Laws.RowEncoding

/-- The word assembled for the command lies in its own row of the opcode table (30_encoding.md rule R73). -/
def Statement (i : Instr) : Prop := encode i &&& rowMask i = rowMatch i

/-- The format with a row mask that frees `ENG` leaves the opcode. -/
theorem commandWord_freed (e : EngId) (opc : BitVec 8) : commandWord e opc &&& 0xFFFFF0FF#32 = opc.setWidth 32 := by
  unfold commandWord
  ext i hi
  interval_cases i <;> simp

theorem supp (e : EngId) : Statement (.supp e) := commandWord_freed e 0x01#8
theorem poly (e : EngId) : Statement (.poly e) := commandWord_freed e 0x02#8
theorem comp (e : EngId) : Statement (.comp e) := commandWord_freed e 0x03#8
theorem compf (e : EngId) : Statement (.compf e) := commandWord_freed e 0x04#8
theorem sel (e : EngId) : Statement (.sel e) := commandWord_freed e 0x05#8
theorem tbuild : Statement .tbuild := by unfold Statement; decide
theorem tread (e : EngId) : Statement (.tread e) := commandWord_freed e 0x07#8
theorem cstepB : Statement .cstepB := by unfold Statement; decide
theorem cstepH : Statement .cstepH := by unfold Statement; decide
theorem cstepW : Statement .cstepW := by unfold Statement; decide
theorem cstepD : Statement .cstepD := by unfold Statement; decide

end Sys2Proof.Laws.RowEncoding
end

