-- ==== Sys2Proof/Laws/Step.lean ====
section
/-!
SUPPORT. What one act of the outside world can do, and so what a step can do: said once, from the inside out.
-/

namespace Sys2Proof.Machine

/-- Every way a value written to `CMD` can end. -/
theorem command_cases (v : Reg) (s : State) :
    (∃ f, command v s = raise f s) ∨ (∃ r k, command v s = complete r (needTable k s)) ∨
    (decode v = .instr .tbuild ∧ command v s = completeQuietly (constructCustom (polyOperand s) s)) ∨
    command v s = stall s := by
  unfold command
  cases decode v with
  | reserved r => exact .inl ⟨_, rfl⟩
  | instr i => simpa using exec_cases i s

/-- A host read hands over the register or is refused. -/
theorem hostRead_cases (n : Nat) (s : State) :
    (∃ v, readReg s n = some v ∧ hostRead n s = .next (s.setPort { s.port with rdata := v })) ∨
    (8 ≤ n ∧ hostRead n s = .refused .noSuchRegister) := by
  rcases n with _ | _ | _ | _ | _ | _ | _ | _ | n
  case succ.succ.succ.succ.succ.succ.succ.succ => exact .inr ⟨by omega, rfl⟩
  all_goals exact .inl ⟨_, rfl, rfl⟩

/-- A host write of an operand register changes that register of the port; of a read-only one, nothing. -/
theorem writeReg_cases (n : Nat) (v : Reg) (s : State) :
    (n < 4 ∧ ∃ q, writeReg n v s = .next (s.setPort q) ∧ q.res = s.port.res ∧ q.status = s.port.status ∧
      q.stuck = s.port.stuck ∧ q.rdata = s.port.rdata) ∨
    (4 ≤ n ∧ n < 7 ∧ writeReg n v s = .next s) ∨ (7 ≤ n ∧ writeReg n v s = .refused .noSuchRegister) := by
  rcases n with _ | _ | _ | _ | _ | _ | _ | n
  case zero => exact .inl ⟨by decide, _, rfl, rfl, rfl, rfl, rfl⟩
  case succ.zero => exact .inl ⟨by decide, _, rfl, rfl, rfl, rfl, rfl⟩
  case succ.succ.zero => exact .inl ⟨by decide, _, rfl, rfl, rfl, rfl, rfl⟩
  case succ.succ.succ.zero => exact .inl ⟨by decide, _, rfl, rfl, rfl, rfl, rfl⟩
  case succ.succ.succ.succ.succ.succ.succ => exact .inr (.inr ⟨by omega, rfl⟩)
  all_goals exact .inr (.inl ⟨by decide, by decide, rfl⟩)

/-- What a host access of the issuing port that answers a next state did: nothing, a change of the port that leaves
`RES`, `STATUS` and its being stuck, or a command. -/
theorem hostOp_cases {op : HostOp} {s t : State} (h : hostOp op s = .next t) :
    t = s ∨ (∃ q, t = s.setPort q ∧ q.res = s.port.res ∧ q.status = s.port.status ∧ q.stuck = s.port.stuck) ∨
    (∃ v, (op = .write 7 v ∨ (op = .writeBack 7 ∧ v = s.port.rdata)) ∧ command v s = .next t) := by
  have write : ∀ n v, hostWrite n v s = .next t →
      t = s ∨ (∃ q, t = s.setPort q ∧ q.res = s.port.res ∧ q.status = s.port.status ∧ q.stuck = s.port.stuck) ∨
      (n = 7 ∧ command v s = .next t) := by
    intro n v h
    unfold hostWrite at h
    split at h
    · exact .inr (.inr ⟨‹_›, h⟩)
    · obtain ⟨-, q, e, h1, h2, h3, -⟩ | ⟨-, -, e⟩ | ⟨-, e⟩ := writeReg_cases n v s <;> rw [e] at h <;> cases h
      · exact .inr (.inl ⟨q, rfl, h1, h2, h3⟩)
      · exact .inl rfl
  cases op with
  | read n =>
    simp only [hostOp] at h
    obtain ⟨v, -, e⟩ | ⟨-, e⟩ := hostRead_cases n s <;> rw [e] at h <;> cases h
    exact .inr (.inl ⟨_, rfl, rfl, rfl, rfl⟩)
  | write n v =>
    obtain h' | h' | ⟨rfl, h'⟩ := write n v h
    · exact .inl h'
    · exact .inr (.inl h')
    · exact .inr (.inr ⟨v, .inl rfl, h'⟩)
  | writeBack n =>
    obtain h' | h' | ⟨rfl, h'⟩ := write n _ h
    · exact .inl h'
    · exact .inr (.inl h')
    · exact .inr (.inr ⟨_, .inr ⟨rfl, rfl⟩, h'⟩)

/-- What a raced command that answers a next state did: it ran on the drawn bytes, then the writes landed. -/
theorem racedCommand_cases {v : Reg} {held draws : List (Reg × Byte)} {s t : State}
    (h : racedCommand v held draws s = .next t) :
    drawsHeld s.mem held draws = true ∧ ∃ u, command v { s with mem := Memory.writeAll s.mem draws } = .next u ∧
      t = { u with mem := Memory.writeAll s.mem held } := by
  unfold racedCommand at h
  split at h
  · obtain ⟨u, hu⟩ := command_next v { s with mem := Memory.writeAll s.mem draws }
    rw [hu] at h
    cases h
    exact ⟨‹_›, u, hu, rfl⟩
  · cases h

/-- No command is running exactly when no port is stuck (60_exceptions.md rule R182). -/
theorem commandRunning_eq_false (s : State) : commandRunning s = false ↔ ∀ q ∈ s.ports, q.stuck = false := by
  simp [commandRunning]

/-- Every way a reset can end: it resets a block none of whose ports is stuck, or is refused. -/
theorem resetAct_cases (capN capW : Bool) (s : State) :
    ((∀ q ∈ s.ports, q.stuck = false) ∧ resetAct capN capW s = .next (resetBlock capN capW s)) ∨
    ((∃ q ∈ s.ports, q.stuck = true) ∧ resetAct capN capW s = .refused .resetDuringCommand) := by
  unfold resetAct
  cases h : commandRunning s with
  | false => exact .inl ⟨(commandRunning_eq_false s).1 h, rfl⟩
  | true => exact .inr ⟨by simpa [commandRunning] using h, rfl⟩

/-- Everything a step that answers a next state can have done. -/
theorem step_cases {s t : State} (h : step s = .next t) :
    (s.events = [] ∧ t = s) ∨
    (∃ a b rest, s.events = .reset a b :: rest ∧ (∀ q ∈ s.ports, q.stuck = false) ∧
      t = resetBlock a b { s with events := rest }) ∨
    (∃ a b rest, s.events = .memWrite a b :: rest ∧
      t = { s with events := rest, mem := Memory.write s.mem a.toNat b }) ∨
    (∃ p ev rest q, s.events = ev :: rest ∧ ((∃ op, ev = .access p op) ∨ ∃ v held draws, ev = .race p v held draws) ∧
      s.ports[p]? = some q ∧
      ((q.stuck = true ∧ t = { s with events := rest }) ∨
       (q.stuck = false ∧
        ((∃ op, ev = .access p op ∧ hostOp op (served s p rest) = .next t) ∨
         (∃ v held draws, ev = .race p v held draws ∧ racedCommand v held draws (served s p rest) = .next t))))) := by
  unfold step at h
  cases he : s.events with
  | nil => rw [he] at h; cases h; exact .inl ⟨rfl, rfl⟩
  | cons ev rest =>
    rw [he] at h
    have port : ∀ p f, onPort p f { s with events := rest } = .next t → ∃ q, s.ports[p]? = some q ∧
        ((q.stuck = true ∧ t = { s with events := rest }) ∨ (q.stuck = false ∧ f (served s p rest) = .next t)) := by
      intro p f h
      obtain ⟨-, e⟩ | ⟨q, hq, ⟨hs, e⟩ | ⟨hs, e⟩⟩ := onPort_cases p f { s with events := rest } <;> rw [e] at h
      · cases h
      · cases h; exact ⟨q, hq, .inl ⟨hs, rfl⟩⟩
      · exact ⟨q, hq, .inr ⟨hs, h⟩⟩
    cases ev with
    | reset a b =>
      simp only [serve] at h
      obtain ⟨hs, e⟩ | ⟨-, e⟩ := resetAct_cases a b { s with events := rest } <;> rw [e] at h <;> cases h
      exact .inr (.inl ⟨a, b, rest, rfl, hs, rfl⟩)
    | memWrite a b => cases h; exact .inr (.inr (.inl ⟨a, b, rest, rfl, rfl⟩))
    | access p op =>
      obtain ⟨q, hq, hs | ⟨hs, h⟩⟩ := port p _ h
      · exact .inr (.inr (.inr ⟨p, _, rest, q, rfl, .inl ⟨op, rfl⟩, hq, .inl hs⟩))
      · exact .inr (.inr (.inr ⟨p, _, rest, q, rfl, .inl ⟨op, rfl⟩, hq, .inr ⟨hs, .inl ⟨op, rfl, h⟩⟩⟩))
    | race p v held draws =>
      obtain ⟨q, hq, hs | ⟨hs, h⟩⟩ := port p _ h
      · exact .inr (.inr (.inr ⟨p, _, rest, q, rfl, .inr ⟨v, held, draws, rfl⟩, hq, .inl hs⟩))
      · exact .inr (.inr (.inr ⟨p, _, rest, q, rfl, .inr ⟨v, held, draws, rfl⟩, hq, .inr ⟨hs, .inr ⟨v, held, draws, rfl, h⟩⟩⟩))

end Sys2Proof.Machine
end

