-- ==== Sys2Proof/Tests/Slice0.lean ====
section
/-!
SUPPORT. Small tests of the model, each expected value taken from spec/95_test_vectors.md (the vector is named), and one
witness for the hypotheses of every statement that has some.
-/

open Sys2Proof Sys2Proof.Machine

namespace Sys2Proof.Tests

/-! ## Helpers -/

/-- One port, some buffer memory, the capabilities given, every address readable. -/
def one (capN capW : Bool) (q : Port) (m : Memory) : State :=
  { State.resetWith ⟨capN, capW, []⟩ 1 m with ports := [q] }

/-- `RES` and `STATUS` of the issuing port after a command. -/
def ends : Result → Option (Reg × Reg)
  | .next t => some (t.port.res, t.port.status)
  | .fault _ => none
  | .refused _ => none

/-- The port numbered `p` after a step. -/
def portAfter (p : Nat) : Result → Option Port
  | .next t => t.ports[p]?
  | .fault _ => none
  | .refused _ => none

/-- The bytes from address `a` up. -/
def bytesAt (a : Nat) (bs : List Nat) : Memory :=
  Memory.writeAll [] (bs.zipIdx.map fun b => (BitVec.ofNat 64 (a + b.2), BitVec.ofNat 8 b.1))

/-- The buffer `00..` of `n` bytes whose values are their own offsets. -/
def ramp (a n : Nat) : Memory := bytesAt a (List.range n)

/-- A reset port with a buffer. -/
def buf (a n : Reg) : Port := { Port.reset with ptr := a, len := n }

/-- A reset port with operands of a `CSTEP` or `TREAD`. -/
def ops (prev data : Reg) : Port := { Port.reset with prev := prev, data := data }

/-- A state in which slots 0 and 2 are valid, the custom polynomial is `p`, and the issuing port has operands. -/
def made (p : Word) : State :=
  { one true true { buf 0x1000 9 with data := 0x17FF, res := 7 } (ramp 0x1000 9) with
    slot0 := ⟨true, build polyCrc32⟩, slot2 := ⟨true, build p⟩, cpoly := p }

/-- Two ports, the second stuck, about to serve the acts. -/
def stuckSecond (evs : List Event) : State :=
  { State.reset with ports := [Port.reset, { ops 5 6 with stuck := true }], events := evs }

/-- `s` about to serve the acts. -/
def about (s : State) (evs : List Event) : State := { s with events := evs }

/-! ## WellFormed refuses ill-formed terms, and takes well-formed ones (30_encoding.md rules R75, R83) -/

theorem test_wf_supp : (Instr.supp 5#4).wf = false ∧ (Instr.supp 4#4).wf = true := by decide
theorem test_wf_poly : (Instr.poly 6#4).wf = false ∧ (Instr.poly 0#4).wf = true := by decide
theorem test_wf_comp : (Instr.comp 7#4).wf = false ∧ (Instr.comp 14#4).wf = true := by decide
theorem test_wf_compf : (Instr.compf 10#4).wf = false ∧ (Instr.compf 15#4).wf = true := by decide
theorem test_wf_sel : (Instr.sel 13#4).wf = false ∧ (Instr.sel 15#4).wf = true := by decide
theorem test_wf_tread : (Instr.tread 9#4).wf = false ∧ (Instr.tread 2#4).wf = true := by decide
theorem test_wf_line : (Line.cmd (.comp 5#4)).wf = false ∧ (Line.cmd .tbuild).wf = true := by decide
theorem test_wf_memory : Memory.wf [(1, 0#8)] = false ∧ Memory.wf [(2, 1#8), (1, 1#8)] = false ∧
    Memory.wf [(2 ^ 64, 1#8)] = false ∧ Memory.wf [(0, 1#8), (2 ^ 64 - 1, 1#8)] = true := by decide

/-! ## Decoding: words written out from 30_encoding.md rule R73, and section 7 of the vectors -/

theorem test_decode_supp : decode 0x00000301#64 = .instr (.supp 3#4) := by decide
theorem test_decode_poly : decode 0x00000202#64 = .instr (.poly 2#4) := by decide
theorem test_decode_comp : decode 0x00000E03#64 = .instr (.comp 14#4) := by decide
theorem test_decode_compf : decode 0x00000F04#64 = .instr (.compf 15#4) := by decide
theorem test_decode_sel : decode 0x00000F05#64 = .instr (.sel 15#4) := by decide
theorem test_decode_tbuild : decode 0x00000206#64 = .instr .tbuild := by decide
theorem test_decode_tread : decode 0x00000407#64 = .instr (.tread 4#4) := by decide
theorem test_decode_cstepB : decode 0x00000008#64 = .instr .cstepB := by decide
theorem test_decode_cstepH : decode 0x00000009#64 = .instr .cstepH := by decide
theorem test_decode_cstepW : decode 0x0000000A#64 = .instr .cstepW := by decide
theorem test_decode_cstepD : decode 0x0000000B#64 = .instr .cstepD := by decide

/-- V-E7 to V-E13: each reserved value is rejected by name. -/
theorem test_decode_reserved :
    decode 0x00000000#64 = .reserved .opcode ∧ decode 0x0000000C#64 = .reserved .opcode ∧
    decode 0x000000FF#64 = .reserved .opcode ∧ decode 0x00001003#64 = .reserved .zeroBits ∧
    decode 0x80000003#64 = .reserved .zeroBits ∧ decode 0x0000000100000003#64 = .reserved .upperBits ∧
    decode 0x00000006#64 = .reserved .tbuildEng ∧ decode 0x00000E06#64 = .reserved .tbuildEng ∧
    decode 0x00000208#64 = .reserved .cstepEng ∧ decode 0x00000F0B#64 = .reserved .cstepEng := by decide

/-- The host's entry: a row's word of 32 bits, and one of more bits than a `CMD` value has. -/
theorem test_decodeTableWord :
    decodeTableWord 32 0x0000000B = some .cstepD ∧ decodeTableWord 32 0x0000000C = none ∧
    decodeTableWord 65 3 = none := by decide

/-! ## The commands -/

/-- V-C3 and V-C7: asking about an absent engine answers 0, about one not constructed faults. -/
theorem test_supp : ends (exec (.supp 3#4) (one false true Port.reset [])) = some (0, 0) ∧
    ends (exec (.supp 2#4) (one true true Port.reset [])) = some (0, 0x22) := by decide +kernel

/-- V-C12 without capabilities, V-C17. -/
theorem test_poly : ends (exec (.poly 3#4) (one false false Port.reset [])) = some (0x82F63B78, 0) ∧
    ends (exec (.poly 13#4) (one true true Port.reset [])) = some (0, 0x22) := by decide +kernel

/-- V-C29 on the generic engine, S1 over the empty buffer at the null address. -/
theorem test_comp_generic :
    ends (exec (.comp 0#4) (one false false (buf 0x1000 3) (bytesAt 0x1000 [0x61, 0x62, 0x63]))) = some (0x352441C2, 0) ∧
    ends (exec (.comp 1#4) (one false false Port.reset [])) = some (0, 0) := by decide +kernel

/-- V-G7 in full: the lookups of word 5 of a block; V-G22 would reverse the columns. -/
theorem test_fold32 : fold32 (build 0xEDB88320) 0 0x17161514 = 0x5ADD9143#32 := by decide +kernel

/-- V-H33 and V-H37: the hardware engines; `PREV` is ignored (V-C40). -/
theorem test_comp_hardware :
    ends (exec (.comp 3#4) (one true false { buf 0x1000 9 with prev := 0xDEADBEEF } (ramp 0x1000 9))) =
      some (0x7144C5A8, 0) ∧
    ends (exec (.comp 4#4) (one true true (buf 0x1000 25) (ramp 0x1000 25))) = some (0x6F8A987D, 0) := by
  decide +kernel

/-- V-C23 with the upper bits of `PREV` set. -/
theorem test_compf_seed :
    ends (exec (.compf 0#4) (one false false { buf 0x1000 5 with prev := 0xAAAAAAAA9BE3E0A3 }
      (bytesAt 0x1000 [0x35, 0x36, 0x37, 0x38, 0x39]))) = some (0xCBF43926, 0) := by decide +kernel

/-- V-F5, V-F6's limit and V-F14: the address check and the priority of NotSupported. -/
theorem test_compf_faults :
    ends (exec (.compf 0#4) (one true true (buf 0xFFFFFFFFFFFFFFF0 17) [])) = some (0, 0x22) ∧
    ends (exec (.compf 3#4) (one false false (buf 0 1) [])) = some (0, 0x11) := by decide +kernel

/-- V-S2 in all configurations, V-S5. -/
theorem test_sel :
    ends (exec (.sel 15#4) (one false true Port.reset [])) = some (1, 0) ∧
    ends (exec (.sel 15#4) (one true false Port.reset [])) = some (3, 0) ∧
    ends (exec (.sel 15#4) (one true true Port.reset [])) = some (4, 0) ∧
    ends (exec (.sel 2#4) (one true true Port.reset [])) = some (2, 0) := by decide +kernel

/-- V-S8. -/
theorem test_sel_reserved : ends (exec (.sel 13#4) (one true true Port.reset [])) = some (0, 0x22) := by decide +kernel

/-- V-C16 and V-T7: `DATA[31:0]` only, and `RES` keeps its old value. -/
theorem test_tbuild :
    (match exec .tbuild (one true true { Port.reset with data := 0x1234567800000000, res := 7 } []) with
      | .next t => decide (t.cpoly = 0#32) && t.slot2.valid && decide (t.port.res = 7#64)
      | .fault _ => false
      | .refused _ => false) = true := by decide +kernel

/-- V-T5, `P = FFFFFFFF`: `T[23][FF]` of the custom engine. -/
theorem test_tread_custom : ends (exec (.tread 2#4) (made 0xFFFFFFFF)) = some (0x00003FC0, 0) := by decide +kernel

/-- V-T6c, V-T6d, V-T6h. -/
theorem test_tread :
    ends (exec (.tread 0#4) (one true true (ops 0 0x17FF) [])) = some (0x09CD8551, 0) ∧
    ends (exec (.tread 0#4) (one true true (ops 0 0x1800) [])) = some (0, 0x22) ∧
    ends (exec (.tread 3#4) (one true true (ops 0 0) [])) = some (0, 0x22) := by decide +kernel

/-- V-H6 with the bits above the operands set, V-H27. -/
theorem test_cstepB :
    ends (exec .cstepB (one true false (ops 0xFFFFFFFFFFFFFFFF 0xFFFFFFFFFFFFFF31) [])) = some (0x6F0A661C, 0) ∧
    ends (exec .cstepB (one false true (ops 0 0) [])) = some (0, 0x11) := by decide +kernel

/-- V-H13. -/
theorem test_cstepH : ends (exec .cstepH (one true false (ops 0xFFFFFFFF 0x3231) [])) = some (0x8CAA3B9F, 0) := by
  decide +kernel

/-- V-H20. -/
theorem test_cstepW : ends (exec .cstepW (one true false (ops 0x12345678 0x9ABCDEF0) [])) = some (0x796AB9A9, 0) := by
  decide +kernel

/-- V-H26, V-H28. -/
theorem test_cstepD :
    ends (exec .cstepD (one true true (ops 0x12345678 0x0123456789ABCDEF) [])) = some (0xA3D207BE, 0) ∧
    ends (exec .cstepD (one true false (ops 0x12345678 0x0123456789ABCDEF) [])) = some (0, 0x11) := by decide +kernel

/-! ## The flags, the tables, the host's accesses -/

/-- V-F20, V-F21: `STATUS` 11, then a good command, then a reserved one. -/
theorem test_status : statusOk 0x11 = 0x10#64 ∧ statusFault .invalidArgument 0x10 = 0x32#64 := by decide

/-- V-T3 and V-T4: entries of both well-known tables. -/
theorem test_table :
    Table.entry (build 0xEDB88320) 1 0x01 = 0x191B3141#32 ∧ Table.entry (build 0xEDB88320) 23 0xFF = 0x09CD8551#32 ∧
    Table.entry (build 0x82F63B78) 20 0x80 = 0x9957C0A6#32 := by decide +kernel

/-- V-R2: a read of `CAP`. -/
theorem test_read_cap :
    (portAfter 0 (step (about (one false true Port.reset []) [.access 0 (.read 6)]))).map Port.rdata = some 2#64 := by
  decide +kernel

/-- V-F24, V-F25: a write to `RES` is ignored, a read of `CMD` gives 0. -/
theorem test_ignored :
    portAfter 0 (step (about (one true true Port.reset []) [.access 0 (.write 4 0xFFFFFFFFFFFFFFFF)])) =
      some Port.reset ∧
    portAfter 0 (step (about (one true true Port.reset []) [.access 0 (.read 7)])) = some Port.reset := by decide +kernel

/-- V-F26: a buffer with an unreadable byte leaves the port stuck, `STATUS` as it was. -/
theorem test_stuck :
    (portAfter 0 (exec (.comp 0#4) { one true true (buf 0x1000 9) [] with plat := ⟨true, true, [⟨0x1004, 1⟩]⟩ })).map
      (fun q => (q.stuck, q.status)) = some (true, 0) := by decide +kernel

/-- 93_implementation_defined.md U11, U16: no reset while a port is stuck; one when none is (V-R7). -/
theorem test_reset :
    (match step (stuckSecond [.reset true true]) with
      | .refused r => decide (r = .resetDuringCommand)
      | .next _ => false
      | .fault _ => false) = true ∧
    portAfter 0 (step (about (one true true { buf 1 2 with status := 0x31 } []) [.reset true true])) = some Port.reset := by
  decide +kernel

/-- V-N5: a fault is recorded on the port that raised it. -/
theorem test_ports :
    portAfter 0 (step (about { one false true Port.reset [] with ports := [Port.reset, Port.reset] }
      [.access 1 (.write 7 0x303)])) = some Port.reset ∧
    (portAfter 1 (step (about { one false true Port.reset [] with ports := [Port.reset, Port.reset] }
      [.access 1 (.write 7 0x303)]))).map Port.status = some 0x11 := by decide +kernel

/-- The host's entry: the very next step after reset runs the word. -/
theorem test_withFetchWord :
    (portAfter 0 (step (State.withFetchWord State.reset 32 0x00000405))).map Port.res = some 4#64 := by decide +kernel

/-- The lines of 30_encoding.md rules R83, R84: the first accesses of program P1, on port 0. -/
theorem test_assemble :
    assemble [(0, .setbuf 0x1000 9), (0, .cmd (.comp 0#4)), (1, .rd .res), (0, .tent 23 255)] =
      [.access 0 (.write 1 0x1000), .access 0 (.write 2 9), .access 0 (.write 7 0x3), .access 1 (.read 4),
        .access 0 (.write 3 0x17FF)] := by decide +kernel

/-! ## Witnesses: each statement's hypotheses hold together of something, clause by clause -/

/-- `made` has a valid built custom table and a valid slot 0. -/
theorem witness_tablesBuilt (p : Word) : IssuerExists (made p) ∧ TablesBuilt (made p) ∧ (made p).slot2.valid = true ∧
    (made p).slot0.valid = true ∧ CanIssue (made p) :=
  ⟨Nat.one_pos, ⟨fun _ => rfl, fun h => by simp [made, one, State.resetWith, Slot.reset] at h, fun _ => rfl⟩,
    rfl, rfl, Nat.one_pos, rfl⟩

theorem witness_WordIsTheCommandOfItsRow :
    decode (cmdValue 0x501#32) = .instr (.supp 5#4) ∧ 0x501#32 &&& rowMask (.supp 0#4) = rowMatch (.supp 0#4) ∧
    0x206#32 &&& rowMask .tbuild = rowMatch .tbuild ∧
    IssuerExists State.reset ∧ IdReserved 5#4 ∧ IdReserved 13#4 ∧ Instr.tread ∈ engineCommands :=
  ⟨by decide, by decide, by decide, by unfold IssuerExists; decide, by unfold IdReserved; decide, by unfold IdReserved; decide,
    by simp [engineCommands]⟩

theorem witness_ReservedValueRaisesInvalidArgument :
    IssuerExists State.reset ∧ ReservedValue 0#64 ∧ ReservedValue 0xC#64 ∧ ReservedValue 0x1003#64 ∧ ReservedValue 0x106#64 ∧
    ReservedValue 0x306#64 ∧ ReservedValue 0x108#64 ∧ ReservedValue 0x10B#64 ∧ ¬ ReservedValue 0xF04#64 ∧
    ¬ ReservedValue 0x206#64 ∧ ¬ ReservedValue 0xB#64 := by
  refine ⟨Nat.one_pos, ?_, ?_, ?_, ?_, ?_, ?_, ?_, ?_, ?_, ?_⟩ <;> (unfold ReservedValue; decide)

theorem witness_StepRunsTheDecodedCommand :
    (about State.reset [.access 0 (.write 7 0x301)]).events = .access 0 (.write 7 0x301) :: [] ∧
    (about State.reset [.access 0 (.write 7 0x301)]).ports[0]? = some Port.reset ∧ Port.reset.stuck = false ∧
    decode 0x301#64 = .instr (.supp 3#4) := by decide +kernel

theorem witness_BlockWaitsForTheNextWrite : State.reset.events = [] := rfl

/-- Registers 0 and 7, and 8, which does not exist. -/
theorem witness_HostReadReturnsTheRegister :
    (about State.reset [.access 0 (.read 7)]).events = .access 0 (.read 7) :: [] ∧
    (about State.reset [.access 0 (.read 8)]).events = .access 0 (.read 8) :: [] ∧
    State.reset.ports[0]? = some Port.reset ∧ Port.reset.stuck = false ∧
    [0#64, 1, 2, 3, 4, 5, 6, 7][7]? = some 7#64 ∧ [0#64, 1, 2, 3, 4, 5, 6, 7][0]? = some 0#64 ∧ 8 ≤ 8 := by
  refine ⟨rfl, rfl, rfl, rfl, rfl, rfl, Nat.le_refl 8⟩

/-- Registers 0 and 6, and 8, which does not exist. -/
theorem witness_HostWriteReplacesTheRegister :
    (about State.reset [.access 0 (.write 6 1)]).events = .access 0 (.write 6 1) :: [] ∧
    (about State.reset [.access 0 (.write 8 1)]).events = .access 0 (.write 8 1) :: [] ∧
    State.reset.ports[0]? = some Port.reset ∧ Port.reset.stuck = false ∧
    [buf 0 0, buf 1 0, buf 2 0, buf 3 0, buf 4 0, buf 5 0, buf 6 0][6]? = some (buf 6 0) ∧ 8 ≤ 8 :=
  ⟨rfl, rfl, rfl, rfl, rfl, Nat.le_refl 8⟩

theorem witness_AccessOnAnAbsentPortIsRefused :
    (about State.reset [.access 1 (.read 0)]).events = .access 1 (.read 0) :: [] ∧ State.reset.ports.length ≤ 1 :=
  ⟨rfl, by decide⟩

theorem witness_CapShowsTheCapabilityFlags :
    State.reset.ports[0]? = some Port.reset ∧ Port.reset.stuck = false ∧
    (about State.reset [.access 0 (.read 6)]).events = .access 0 (.read 6) :: [] ∧
    (about State.reset [.access 0 (.write 6 3)]).events = .access 0 (.write 6 3) :: [] := ⟨rfl, rfl, rfl, rfl⟩

theorem witness_ChainCopiesTheResultIntoTheSeed :
    (about State.reset (assemble [(0, .chain)])).events = (lineOps .chain).map (Event.access 0) ++ [] ∧
    State.reset.ports[0]? = some Port.reset ∧ Port.reset.stuck = false := ⟨by decide +kernel, rfl, rfl⟩

theorem witness_ResetLeavesTheResetValues :
    (about (made 1#32) [.reset false true]).events = .reset false true :: [] ∧
    (∀ q ∈ (about (made 1#32) [.reset false true]).ports, q.stuck = false) ∧
    (about (stuckSecond []) [.reset false true]).events = .reset false true :: [] ∧
    ∃ q ∈ (about (stuckSecond []) [.reset false true]).ports, q.stuck = true :=
  ⟨rfl, by simp [about, made, one, buf, Port.reset], rfl, by simp [about, stuckSecond]⟩

/-- The first port's command is served while the second port is stuck. -/
theorem witness_StuckPortStaysAsItIs :
    (∃ t, step (stuckSecond [.access 0 (.write 7 0x206)]) = .next t) ∧
    (stuckSecond []).ports[1]? = some { ops 5 6 with stuck := true } := ⟨⟨_, rfl⟩, rfl⟩

theorem witness_ResetStateMeetsTheInvariant : 0 < 2 ∧ Memory.wf [(4096, 1#8)] = true := by decide

/-- An invariant state, right after reset, that is about to serve a command. -/
theorem witness_EveryStepKeepsTheInvariant :
    (about State.reset [.access 0 (.write 7 0x206)]).Inv ∧
    ∃ t, step (about State.reset [.access 0 (.write 7 0x206)]) = .next t ∧ t.slot2.valid = true := by
  refine ⟨⟨by unfold IssuerExists; decide, ?_, ?_, rfl⟩, _, rfl, rfl⟩
  · intro p hp
    simp only [about, State.reset, State.resetWith, List.mem_replicate] at hp
    rw [hp.2]; unfold PortLegal StatusLegal; decide
  · refine ⟨?_, ?_, ?_⟩ <;> intro h <;> simp [about, State.reset, State.resetWith, Slot.reset] at h

theorem witness_FlagsAreConstantBetweenResets :
    (∃ t, step (about State.reset [.access 0 (.read 6)]) = .next t) ∧
    (∀ a b rest, (about State.reset [.access 0 (.read 6)]).events ≠ .reset a b :: rest) ∧
    ∃ t, step (about State.reset [.reset false false]) = .next t := by
  refine ⟨⟨_, rfl⟩, fun a b rest h => ?_, _, rfl⟩; simp [about] at h

/-- A `TBUILD` replaces a custom engine; slot 0 is valid and stays. -/
theorem witness_ValidTablesStayUntilReset :
    (∃ t, step (about (made 1#32) [.access 0 (.write 7 0x206)]) = .next t ∧ t.cpoly ≠ 1#32) ∧
    (∀ a b rest, (about (made 1#32) [.access 0 (.write 7 0x206)]).events ≠ .reset a b :: rest) ∧ (made 1#32).slot2.valid = true := by
  refine ⟨⟨_, rfl, ?_⟩, fun a b rest h => ?_, rfl⟩
  · decide +kernel
  · simp [about] at h

theorem witness_StickyBitsStayUntilReset :
    (∃ t r, step (about (one false false { Port.reset with status := 0x31 } []) [.access 0 (.write 7 0x301)]) = .next t ∧
      t.ports[0]? = some r) ∧
    (∀ a b rest, (about (one false false { Port.reset with status := 0x31 } []) [.access 0 (.write 7 0x301)]).events ≠
      .reset a b :: rest) ∧
    (one false false { Port.reset with status := 0x31 } []).ports[0]? = some { Port.reset with status := 0x31 } ∧
    snsField 0x31 = true ∧ siaField 0x31 = true := by
  refine ⟨⟨_, _, rfl, rfl⟩, fun a b rest h => ?_, rfl, rfl, rfl⟩; simp [about] at h

/-- Every command has a next state, of every constructor. -/
theorem witness_CommandsLeaveOperandsPortsAndMemory (i : Instr) : IssuerExists (made 1#32) ∧ ∃ t, exec i (made 1#32) = .next t :=
  ⟨(witness_tablesBuilt 1#32).1, exec_next i _⟩

theorem witness_TableStoreChangesOnlyAsDocumented (i : Instr) : ∃ t, exec i (made 1#32) = .next t := exec_next i _

theorem witness_OnlyCompAndCompfReadMemory :
    (∃ t, command 0x3#64 (made 1#32) = .next t) ∧
    (∀ e, decode 0x206#64 ≠ .instr (.comp e) ∧ decode 0x206#64 ≠ .instr (.compf e)) ∧
    (∃ t, command 0x206#64 (made 1#32) = .next t) :=
  ⟨command_next _ _, by decide, command_next _ _⟩

/-- Both kinds of fault, on a state with an unreadable address. -/
theorem witness_FaultChangesOnlyStatus :
    CanIssue (one false false (buf 0 1) []) ∧
    (∃ t, command 0x303#64 (one false false (buf 0 1) []) = .next t ∧ t.port.stuck = false ∧ errField t.port.status = 1#2) ∧
    (∃ t, command 0x003#64 (one false false (buf 0 1) []) = .next t ∧ t.port.stuck = false ∧ errField t.port.status = 2#2) := by
  refine ⟨⟨by unfold IssuerExists; decide, rfl⟩, ⟨_, rfl, rfl, ?_⟩, ⟨_, rfl, rfl, ?_⟩⟩ <;> decide +kernel

theorem witness_EveryCommandEndsInOneOfThreeWays : CanIssue State.reset := ⟨by unfold IssuerExists; decide, rfl⟩

/-- Every case that raises NotSupported. -/
theorem witness_NotSupportedIsRaisedExactly :
    CanIssue (one false true Port.reset []) ∧ CanIssue (one true false Port.reset []) ∧ decode 0x303#64 = .instr (.comp 3#4) ∧
    RaisesNotSupported (one false true Port.reset []) (.comp 3#4) ∧ RaisesNotSupported (one true false Port.reset []) (.compf 4#4) ∧
    RaisesNotSupported (one false true Port.reset []) (.compf 4#4) ∧ RaisesNotSupported (one false true Port.reset []) .cstepB ∧
    RaisesNotSupported (one true false Port.reset []) .cstepD :=
  ⟨⟨by unfold IssuerExists; decide, rfl⟩, ⟨by unfold IssuerExists; decide, rfl⟩, by decide, .inl ⟨rfl, rfl⟩, .inr ⟨rfl, .inr rfl⟩,
    .inr ⟨rfl, .inl rfl⟩, rfl, .inr rfl⟩

/-- Every case that raises InvalidArgument: V-C9, V-C7, V-F2, V-F3, V-F5, V-T6d, V-T6h, V-E7. -/
theorem witness_InvalidArgumentIsRaisedExactly :
    CanIssue (one true true (buf 0x1000 0x8000000000000000) []) ∧ ReservedValue 0#64 ∧
    RaisesInvalidArgument State.reset (.supp 5#4) ∧ RaisesInvalidArgument State.reset (.poly 2#4) ∧
    RaisesInvalidArgument (one true true (buf 0x1000 0x8000000000000000) []) (.comp 0#4) ∧
    RaisesInvalidArgument (one true true (buf 0 1) []) (.compf 4#4) ∧
    RaisesInvalidArgument (one false false (buf 0xFFFFFFFFFFFFFFF0 17) []) (.comp 1#4) ∧
    RaisesInvalidArgument State.reset (.sel 13#4) ∧
    RaisesInvalidArgument (one true true (ops 0 0x1800) []) (.tread 0#4) ∧ RaisesInvalidArgument State.reset (.tread 15#4) := by
  refine ⟨⟨by unfold IssuerExists; decide, rfl⟩, by unfold ReservedValue; decide, .inl ⟨by decide, by decide⟩, .inr ⟨rfl, rfl⟩,
    .inr ⟨?_, ?_⟩, .inr ⟨?_, ?_⟩, .inr ⟨?_, ?_⟩, ⟨by decide, by decide⟩, .inr (.inr (by decide)), .inr (.inl (.inr (.inr ⟨rfl, rfl⟩)))⟩
  all_goals first
    | (unfold EngineUnsupported; decide)
    | (unfold ArgsGood bufLen bufAddr; decide)

/-- The five real engines, an id that names none, engine 2 before its construction, both names of the selector. -/
theorem witness_SuppAnswersWhetherTheEngineCanRun :
    IssuerExists (made 1#32) ∧ target (made 1#32) 0#4 = some .gen32 ∧ target (made 1#32) 1#4 = some .gen32c ∧
    target (made 1#32) 2#4 = some .gencu ∧ target (made 1#32) 3#4 = some .hwn ∧ target (made 1#32) 4#4 = some .hww ∧
    target (made 1#32) 14#4 = some .gen32 ∧ target (made 1#32) 15#4 = some .hww ∧
    NoSuchEngine State.reset 5#4 ∧ NoSuchEngine State.reset 13#4 ∧ NoSuchEngine State.reset 2#4 :=
  ⟨(witness_tablesBuilt 1#32).1, rfl, rfl, rfl, rfl, rfl, rfl, rfl, .inl ⟨by decide, by decide⟩, .inl ⟨by decide, by decide⟩,
    .inr ⟨rfl, rfl⟩⟩

theorem witness_PolyAnswersTheEnginesPolynomial :
    IssuerExists (made 1#32) ∧ target (made 1#32) 2#4 = some .gencu ∧ target (made 1#32) 4#4 = some .hww ∧
    IssuerExists State.reset ∧ NoSuchEngine State.reset 5#4 ∧ NoSuchEngine State.reset 2#4 :=
  ⟨(witness_tablesBuilt 1#32).1, rfl, rfl, by unfold IssuerExists; decide, .inl ⟨by decide, by decide⟩, .inr ⟨rfl, rfl⟩⟩

theorem witness_SelReportsTheRealEngine :
    IssuerExists State.reset ∧ (0#4).toNat ≤ 4 ∧ (4#4).toNat ≤ 4 ∧ IdReserved 5#4 ∧ IdReserved 13#4 := by
  unfold IssuerExists IdReserved; decide

theorem witness_AliasActsAsTheRealEngine : Instr.supp ∈ engineCommands ∧ Instr.tread ∈ engineCommands := by
  simp [engineCommands]

/-- A buffer that ends at the top of the address space (V-F6), one of nine bytes, on three engines. -/
theorem witness_CompComputesTheReferenceChecksum :
    IssuerExists (made 1#32) ∧ TablesBuilt (made 1#32) ∧ target (made 1#32) 4#4 = some .hww ∧
    supported (made 1#32).plat .hww = true ∧ ArgsGood (made 1#32) ∧ BufferReadable (made 1#32) ∧
    ArgsGood (one true true (buf 0xFFFFFFFFFFFFFFF0 16) []) ∧ ArgsGood State.reset :=
  ⟨(witness_tablesBuilt 1#32).1, (witness_tablesBuilt 1#32).2.1, rfl, rfl, by unfold ArgsGood bufLen bufAddr; decide,
    fun _ _ => rfl, by unfold ArgsGood bufLen bufAddr; decide, by unfold ArgsGood bufLen bufAddr; decide⟩

theorem witness_CompfContinuesTheReferenceChecksum :
    IssuerExists (made 1#32) ∧ TablesBuilt (made 1#32) ∧ target (made 1#32) 2#4 = some .gencu ∧
    supported (made 1#32).plat .gencu = true ∧ ArgsGood (made 1#32) ∧ BufferReadable (made 1#32) :=
  ⟨(witness_tablesBuilt 1#32).1, (witness_tablesBuilt 1#32).2.1, rfl, rfl, by unfold ArgsGood bufLen bufAddr; decide,
    fun _ _ => rfl⟩

/-- The last byte of the buffer is unreadable; then an access of a stuck port. -/
theorem witness_UnreadableByteLeavesThePortStuck :
    (target { made 1#32 with plat := ⟨true, true, [⟨0x1008, 1⟩]⟩ } 0#4 = some .gen32 ∧ supported ⟨true, true, [⟨0x1008, 1⟩]⟩ .gen32 = true ∧
      ArgsGood { made 1#32 with plat := ⟨true, true, [⟨0x1008, 1⟩]⟩ } ∧
      ¬ BufferReadable { made 1#32 with plat := ⟨true, true, [⟨0x1008, 1⟩]⟩ }) ∧
    (about (one true true { Port.reset with stuck := true } []) [.access 0 (.write 7 1)]).events = .access 0 (.write 7 1) :: [] ∧
    (one true true { Port.reset with stuck := true } []).ports[0]? = some { Port.reset with stuck := true } := by
  refine ⟨⟨rfl, rfl, by unfold ArgsGood bufLen bufAddr; decide, fun h => ?_⟩, rfl, rfl⟩
  exact absurd (h 8 (by decide)) (by decide)

theorem witness_EmptyBufferGivesZero :
    IssuerExists State.reset ∧ target State.reset 15#4 = some .hww ∧ supported State.reset.plat .hww = true ∧
    State.reset.port.len = 0#64 := ⟨by unfold IssuerExists; decide, rfl, rfl, rfl⟩

/-- The low half of `PREV` is 0, the high half is not. -/
theorem witness_CompIsCompfFromZero : (one true true (ops 0x100000000 0) []).port.prev.toNat % 2 ^ 32 = 0 := by decide

theorem witness_ChecksumsChainAtAnySplit : TablesBuilt (made 1#32) ∧ engineExists (made 1#32) .gencu = true :=
  ⟨(witness_tablesBuilt 1#32).2.1, rfl⟩

theorem witness_EnginesOfOnePolynomialAgree :
    TablesBuilt (made 0xEDB88320#32) ∧ (made 0xEDB88320#32).slot2.valid = true ∧ (made 0xEDB88320#32).cpoly = 0xEDB88320#32 ∧
    TablesBuilt (made 0x82F63B78#32) ∧ (made 0x82F63B78#32).slot2.valid = true ∧ (made 0x82F63B78#32).cpoly = 0x82F63B78#32 :=
  ⟨(witness_tablesBuilt _).2.1, rfl, rfl, (witness_tablesBuilt _).2.1, rfl, rfl⟩

/-- The same two bytes at different places (V-C43). -/
theorem witness_ChecksumDependsOnTheBytesOnly :
    ∀ i < 2, Memory.read [(4096, 1#8), (4097, 2#8)] (4096 + i) = Memory.read [(4099, 1#8), (4100, 2#8)] (4099 + i) := by decide

/-- Two states that differ in a second port and in whether slot 0 is built. -/
theorem witness_OutcomeIgnoresPortsAndBuiltTables :
    IssuerExists (made 1#32) ∧ TablesBuilt (made 1#32) ∧
    IssuerExists { made 1#32 with slot0 := Slot.reset, ports := (made 1#32).ports ++ [ops 1 2] } ∧
    TablesBuilt { made 1#32 with slot0 := Slot.reset, ports := (made 1#32).ports ++ [ops 1 2] } ∧
    (made 1#32).port = State.port { made 1#32 with slot0 := Slot.reset, ports := (made 1#32).ports ++ [ops 1 2] } ∧
    (∃ t, command 0x3#64 (made 1#32) = .next t) ∧
    ∃ t, command 0x3#64 { made 1#32 with slot0 := Slot.reset, ports := (made 1#32).ports ++ [ops 1 2] } = .next t :=
  ⟨(witness_tablesBuilt 1#32).1, (witness_tablesBuilt 1#32).2.1, by unfold IssuerExists; decide,
    ⟨fun h => by simp [Slot.reset] at h, (witness_tablesBuilt 1#32).2.1.2.1, fun _ => rfl⟩, rfl, command_next _ _, command_next _ _⟩

/-- The first and the last pair of columns. -/
theorem witness_BuildFollowsItsTwoColumnRules :
    (1 : Fin Config.ncol).val = (0 : Fin Config.ncol).val + 1 ∧ (23 : Fin Config.ncol).val = (22 : Fin Config.ncol).val + 1 := by
  decide

theorem witness_TbuildConstructsTheCustomEngine : IssuerExists State.reset := by unfold IssuerExists; decide

/-- The last column and the first that does not exist; no such engine; a hardware engine, by its id and by the selector. -/
theorem witness_TreadReturnsTheEntry :
    IssuerExists (made 1#32) ∧ TablesBuilt (made 1#32) ∧ target (made 1#32) 2#4 = some .gencu ∧
    ¬ StandsForHardware (made 1#32).plat 2#4 ∧ treadColumn (made 1#32) = 23 ∧
    24 ≤ treadColumn (one true true (ops 0 0x1800) []) ∧ StandsForHardware (made 1#32).plat 3#4 ∧
    StandsForHardware (made 1#32).plat 15#4 ∧ NoSuchEngine State.reset 2#4 :=
  ⟨(witness_tablesBuilt 1#32).1, (witness_tablesBuilt 1#32).2.1, rfl, by unfold StandsForHardware; decide, by decide, by decide,
    .inl rfl, .inr (.inr ⟨rfl, rfl⟩), .inr ⟨rfl, rfl⟩⟩

theorem witness_NarrowCstepsFoldTheLowBytesOfData :
    IssuerExists (one true false Port.reset []) ∧ (one true false Port.reset []).plat.capN = true ∧
    IssuerExists (one false true Port.reset []) ∧ (one false true Port.reset []).plat.capN = false ∧
    (Instr.cstepW, 4) ∈ [(Instr.cstepB, 1), (Instr.cstepH, 2), (Instr.cstepW, 4)] := by
  unfold IssuerExists; decide

theorem witness_WideCstepFoldsAllOfData :
    IssuerExists State.reset ∧ State.reset.plat.capN = true ∧ State.reset.plat.capW = true ∧
    IssuerExists (one true false Port.reset []) ∧ (one true false Port.reset []).plat.capW = false := by
  unfold IssuerExists; decide

/-- Two ports that are not stuck. -/
def two (evs : List Event) : State := { State.reset with ports := [Port.reset, ops 5 6], events := evs }

theorem witness_PortsReachOnlyTheirOwnRegisters :
    (1 ≠ 0 ∧ ∃ t, step (two [.access 0 (.write 7 0x206)]) = .next t) ∧
    (two [.access 0 (.write 7 0x206)]).events = .access 0 (.write 7 0x206) :: [] ∧
    (∃ t, step (two [.race 0 0x206 [(8, 1)] [(8, 1)]]) = .next t) ∧
    (two [.race 0 0x206 [(8, 1)] [(8, 1)]]).events = .race 0 0x206 [(8, 1)] [(8, 1)] :: [] :=
  ⟨⟨by decide, _, rfl⟩, rfl, ⟨_, rfl⟩, rfl⟩

theorem witness_CommandsOfDifferentPortsCommute :
    0 ≠ 1 ∧ TablesBuilt (two []) ∧ (two []).ports[0]? = some Port.reset ∧ (two []).ports[1]? = some (ops 5 6) ∧
    Port.reset.stuck = false ∧ (ops 5 6).stuck = false ∧ decode 0x3#64 ≠ .instr .tbuild ∧ decode 0x103#64 ≠ .instr .tbuild := by
  refine ⟨by decide, ⟨?_, ?_, ?_⟩, rfl, rfl, rfl, rfl, by decide, by decide⟩ <;>
    (intro h; simp [two, State.reset, State.resetWith, Slot.reset] at h)

theorem witness_MemoryWriteIsReadBack :
    (about (made 1#32) [.memWrite 0x1000 9]).events = .memWrite 0x1000 9 :: [] ∧ Memory.wf (ramp 0x1000 9) = true :=
  ⟨rfl, by decide +kernel⟩

theorem witness_CanonicalMemoriesAreDeterminedByTheirBytes :
    Memory.wf [(0, 2#8), (2 ^ 64 - 1, 1#8)] = true ∧ Memory.wf [(4096, 1#8)] = true ∧
    Memory.wf (Memory.write [] 4096 1#8) = true ∧
    ∀ a < 2 ^ 64, Memory.read [(4096, 1#8)] a = Memory.read (Memory.write [] 4096 1#8) a :=
  ⟨by decide, by decide, by decide +kernel, fun _ _ => rfl⟩

/-- A byte drawn as the value it is about to hold, and one drawn as the value it held. -/
theorem witness_RacedCommandSeesOnlyHeldBytes :
    (two [.race 0 0x3 [(8, 1)] [(8, 1), (9, 0)]]).events = .race 0 0x3 [(8, 1)] [(8, 1), (9, 0)] :: [] ∧
    (two []).ports[0]? = some Port.reset ∧ Port.reset.stuck = false ∧ Memory.wf (two []).mem = true ∧
    ∀ d ∈ [((8 : Reg), (1 : Byte)), (9, 0)], Memory.read (two []).mem d.1.toNat = d.2 ∨ d ∈ [((8 : Reg), (1 : Byte))] :=
  ⟨rfl, rfl, rfl, rfl, by simp [two, State.reset, State.resetWith]; rfl⟩

end Sys2Proof.Tests
end

section
/-!
PROOFS. The state and the host's accesses, part 1: what one command and one step do to the ports, the table store, the
configuration and memory, each said once (10_state.md rules R20 to R41).
-/

namespace Sys2Proof.Machine

variable {s t : State} {p : Nat} {q q' : Port} {rest : List Event}

/-! ## Ports -/

/-- Writing the issuing port back as it is changes nothing. -/
theorem setPort_port (h : IssuerExists s) : s.setPort s.port = s := by
  obtain ⟨_, hget⟩ := List.getElem?_eq_some_iff.1 (getElem?_cur s h)
  rw [State.setPort, ← hget, List.set_getElem_self]

/-- The issuing port of a state whose ports are those of `s` with the issuing one replaced. -/
theorem port_of_ports_set (h : IssuerExists s) (hp : t.ports = s.ports.set s.cur q) (hc : t.cur = s.cur) :
    t.port = q := by
  rw [State.port, hp, hc]
  exact port_setPort s q h

theorem issuerExists_served (h : s.ports[p]? = some q) : IssuerExists (served s p rest) :=
  (List.getElem?_eq_some_iff.1 h).1

@[simp] theorem served_port (h : s.ports[p]? = some q) : (served s p rest).port = q := by
  simp [served, State.port, List.getD_eq_getElem?_getD, h]

/-- Every port is what `P` says once the port numbered `p` is replaced by one that is. -/
theorem forall_mem_set {P : Port → Prop} {l : List Port} (hl : ∀ x ∈ l, P x) (hq : P q) : ∀ x ∈ l.set p q, P x := by
  intro x hx
  obtain hx | rfl := List.mem_or_eq_of_mem_set hx
  · exact hl x hx
  · exact hq

/-! ## `STATUS` -/

theorem statusOk_keeps_upper (st : Reg) : statusOk st &&& ~~~0x33#64 = st &&& ~~~0x33#64 := by
  have hmask : ~~~0x33#64 = ~~~3#64 &&& ~~~0x33#64 := by decide
  rw [hmask, ← BitVec.and_assoc, statusOk_keeps, BitVec.and_assoc]

@[simp] theorem snsField_statusOk (st : Reg) : snsField (statusOk st) = snsField st := by
  simp [snsField, statusOk, setErr]

@[simp] theorem siaField_statusOk (st : Reg) : siaField (statusOk st) = siaField st := by
  simp [siaField, statusOk, setErr]

/-- The ways `STATUS` is written between resets: not at all, by a command that ends well, by a fault
(10_state.md rule R28). -/
def StatusWrite (st st' : Reg) : Prop := st' = st ∨ st' = statusOk st ∨ ∃ f, st' = statusFault f st

theorem StatusWrite.upper {st st' : Reg} (h : StatusWrite st st') : st' &&& ~~~0x33#64 = st &&& ~~~0x33#64 := by
  obtain rfl | rfl | ⟨f, rfl⟩ := h
  · rfl
  · exact statusOk_keeps_upper st
  · exact statusFault_keeps st f

theorem StatusWrite.sticky {st st' : Reg} (h : StatusWrite st st') :
    (snsField st = true → snsField st' = true) ∧ (siaField st = true → siaField st' = true) := by
  obtain rfl | rfl | ⟨f, rfl⟩ := h
  · exact ⟨id, id⟩
  · simp
  · exact ⟨fun h => by simp [snsField_statusFault, h], fun h => by simp [siaField_statusFault, h]⟩

/-- `STATUS` stays legal: `ERR` is 0 after a command that ends well; a fault sets the sticky bit of its code. -/
theorem StatusWrite.legal {st st' : Reg} (h : StatusWrite st st') (hl : StatusLegal st) : StatusLegal st' := by
  have hup : st' &&& ~~~0x33#64 = 0#64 := h.upper.trans hl.1
  obtain rfl | rfl | ⟨f, rfl⟩ := h
  · exact hl
  · rw [StatusLegal, errField_statusOk]
    exact ⟨hup, by decide, by simp, by simp⟩
  · rw [StatusLegal, errField_statusFault, snsField_statusFault, siaField_statusFault]
    cases f <;> exact ⟨hup, by decide, by simp [errCode], by simp [errCode]⟩

/-! ## What a command or a host access does to the port that issues it -/

/-- `RES` stays or takes a zero-extended word (10_state.md rule R26), and `STATUS` is written as rule R28 allows. -/
def PortWrite (q q' : Port) : Prop :=
  (q'.res = q.res ∨ ∃ r : Word, q'.res = r.setWidth 64) ∧ StatusWrite q.status q'.status

theorem PortWrite.of_eq (hres : q'.res = q.res) (hstatus : q'.status = q.status) : PortWrite q q' :=
  ⟨.inl hres, .inl hstatus⟩

theorem PortWrite.legal (h : PortWrite q q') (hl : PortLegal q) : PortLegal q' := by
  obtain ⟨hres, hstatus⟩ := h
  refine ⟨?_, hstatus.legal hl.2⟩
  obtain hres | ⟨r, hres⟩ := hres
  · rw [hres]; exact hl.1
  · rw [hres]; ext i hi; simp

/-- No command writes the operand registers of its port or the value its latest read returned. -/
structure PortEnd (q q' : Port) : Prop where
  prev : q'.prev = q.prev
  ptr : q'.ptr = q.ptr
  len : q'.len = q.len
  data : q'.data = q.data
  rdata : q'.rdata = q.rdata
  write : PortWrite q q'

/-! ## What a command does -/

/-- The four ways a command ends (70_reset_and_hazards.md rule R200), as next states: `exec_cases` and `command_cases`
in one form, with the construction of the custom engine tied to the decoded `TBUILD`. -/
inductive CommandEnd (s : State) (d : Decoded) : State → Prop where
  | fault (f : EzFault) : CommandEnd s d (s.withFault f)
  | result (r : Word) (k : Engine) : CommandEnd s d ((needTable k s).withResult r)
  | tbuild (hd : d = .instr .tbuild) : CommandEnd s d (constructCustom (polyOperand s) s).withOk
  | stuck : CommandEnd s d s.withStuck

theorem exec_end {i : Instr} (h : exec i s = .next t) : CommandEnd s (.instr i) t := by
  obtain ⟨f, e⟩ | ⟨r, k, e⟩ | ⟨hi, e⟩ | e := exec_cases i s <;> rw [e] at h <;> cases h
  · exact .fault f
  · exact .result r k
  · exact .tbuild (congrArg _ hi)
  · exact .stuck

theorem command_end {v : Reg} (h : command v s = .next t) : CommandEnd s (decode v) t := by
  obtain ⟨f, e⟩ | ⟨r, k, e⟩ | ⟨hd, e⟩ | e := command_cases v s <;> rw [e] at h <;> cases h
  · exact .fault f
  · exact .result r k
  · exact .tbuild hd
  · exact .stuck

namespace CommandEnd

variable {d : Decoded}

/-- Of the ports a command changes the issuing one only. -/
theorem ports (h : CommandEnd s d t) : ∃ q, t.ports = s.ports.set s.cur q ∧ PortEnd s.port q := by
  cases h with
  | fault f => exact ⟨_, rfl, rfl, rfl, rfl, rfl, rfl, .inl rfl, .inr (.inr ⟨f, rfl⟩)⟩
  | result r k =>
    refine ⟨{ s.port with res := r.setWidth 64, status := statusOk s.port.status }, by simp [withResult_eq], ?_⟩
    exact ⟨rfl, rfl, rfl, rfl, rfl, .inr ⟨r, rfl⟩, .inr (.inl rfl)⟩
  | tbuild => exact ⟨_, rfl, rfl, rfl, rfl, rfl, rfl, .inl rfl, .inr (.inl rfl)⟩
  | stuck => exact ⟨_, rfl, rfl, rfl, rfl, rfl, rfl, .of_eq rfl rfl⟩

/-- No command writes the configuration, memory, the acts to come or the number of the issuing port. -/
theorem outside (h : CommandEnd s d t) : t.plat = s.plat ∧ t.mem = s.mem ∧ t.events = s.events ∧ t.cur = s.cur := by
  cases h with
  | fault f => exact ⟨rfl, rfl, rfl, rfl⟩
  | result r k => simp [withResult_eq]
  | tbuild => exact ⟨rfl, rfl, rfl, rfl⟩
  | stuck => exact ⟨rfl, rfl, rfl, rfl⟩

end CommandEnd

/-! ## The table store -/

/-- Slots 0 and 1 stay or are built, slot 2 and `CPOLY` stay: all the lazy build may do (40_contract.md rule R100). -/
def LazilyBuilt (s t : State) : Prop :=
  KeptOrBuilt polyCrc32 s.slot0 t.slot0 ∧ KeptOrBuilt polyCrc32c s.slot1 t.slot1 ∧ t.slot2 = s.slot2 ∧ t.cpoly = s.cpoly

/-- Slots 0 and 1 stay, slot 2 is the valid table of `CPOLY`: what `TBUILD` does (41_table_builder.md rule R118). -/
def CustomBuilt (s t : State) : Prop :=
  t.slot0 = s.slot0 ∧ t.slot1 = s.slot1 ∧ t.slot2 = ⟨true, build t.cpoly⟩

theorem lazilyBuilt_of_kept (h : TableStoreKept s t) : LazilyBuilt s t :=
  ⟨.inl h.1, .inl h.2.1, h.2.2⟩

theorem keptOrBuilt_buildIfNeeded (c : Word) (sl : Slot) : KeptOrBuilt c sl (buildIfNeeded c sl) := by
  unfold buildIfNeeded
  split
  · exact .inl rfl
  · exact .inr ⟨Bool.eq_false_iff.2 ‹_›, rfl⟩

theorem lazilyBuilt_needTable (k : Engine) : LazilyBuilt s (needTable k s) := by
  cases k with
  | gen32 => exact ⟨keptOrBuilt_buildIfNeeded _ _, .inl rfl, rfl, rfl⟩
  | gen32c => exact ⟨.inl rfl, keptOrBuilt_buildIfNeeded _ _, rfl, rfl⟩
  | gencu => exact lazilyBuilt_of_kept ⟨rfl, rfl, rfl, rfl⟩
  | hwn => exact lazilyBuilt_of_kept ⟨rfl, rfl, rfl, rfl⟩
  | hww => exact lazilyBuilt_of_kept ⟨rfl, rfl, rfl, rfl⟩

theorem KeptOrBuilt.built {c : Word} {sl sl' : Slot} (h : KeptOrBuilt c sl sl')
    (hb : sl.valid = true → sl.table = build c) : sl'.valid = true → sl'.table = build c := by
  obtain rfl | ⟨-, rfl⟩ := h
  · exact hb
  · exact fun _ => rfl

theorem LazilyBuilt.tablesBuilt (h : LazilyBuilt s t) (hb : TablesBuilt s) : TablesBuilt t := by
  obtain ⟨h0, h1, h2, hc⟩ := h
  obtain ⟨b0, b1, b2⟩ := hb
  exact ⟨h0.built b0, h1.built b1, by rw [h2, hc]; exact b2⟩

theorem CustomBuilt.tablesBuilt (h : CustomBuilt s t) (hb : TablesBuilt s) : TablesBuilt t := by
  obtain ⟨h0, h1, h2⟩ := h
  obtain ⟨b0, b1, -⟩ := hb
  exact ⟨by rw [h0]; exact b0, by rw [h1]; exact b1, fun _ => by rw [h2]⟩

/-- A command builds slots 0 and 1 lazily, unless it is `TBUILD`. -/
theorem CommandEnd.tables {d : Decoded} (h : CommandEnd s d t) :
    LazilyBuilt s t ∨ (d = .instr .tbuild ∧ CustomBuilt s t) := by
  cases h with
  | fault f => exact .inl (lazilyBuilt_of_kept ⟨rfl, rfl, rfl, rfl⟩)
  | result r k => exact .inl (lazilyBuilt_needTable k)
  | tbuild hd => exact .inr ⟨hd, rfl, rfl, rfl⟩
  | stuck => exact .inl (lazilyBuilt_of_kept ⟨rfl, rfl, rfl, rfl⟩)

/-- A command but `TBUILD` builds slots 0 and 1 lazily and does nothing else to the table store. -/
theorem lazilyBuilt_of_exec {i : Instr} (hi : i ≠ .tbuild) (h : exec i s = .next t) : LazilyBuilt s t := by
  obtain h | ⟨hd, -⟩ := (exec_end h).tables
  · exact h
  · cases hd; exact absurd rfl hi

/-- The command ends in a fault or with a result, on the table store as it found it. -/
def EndsWithoutBuild (s : State) (x : Result) : Prop := (∃ f, x = raise f s) ∨ ∃ r, x = complete r s

theorem EndsWithoutBuild.tableStoreKept {x : Result} (hx : EndsWithoutBuild s x) (h : x = .next t) :
    TableStoreKept s t := by
  obtain ⟨f, e⟩ | ⟨r, e⟩ := hx <;> cases e.symm.trans h <;> exact ⟨rfl, rfl, rfl, rfl⟩

theorem execSupp_endsWithoutBuild (e : EngId) (s : State) : EndsWithoutBuild s (execSupp e s) := by
  unfold execSupp
  split
  · exact .inl ⟨_, rfl⟩
  · exact .inr ⟨_, rfl⟩

theorem execPoly_endsWithoutBuild (e : EngId) (s : State) : EndsWithoutBuild s (execPoly e s) := by
  unfold execPoly
  split
  · exact .inl ⟨_, rfl⟩
  · exact .inr ⟨_, rfl⟩

theorem execSel_endsWithoutBuild (e : EngId) (s : State) : EndsWithoutBuild s (execSel e s) := by
  unfold execSel
  split
  · exact .inl ⟨_, rfl⟩
  · exact .inr ⟨_, rfl⟩

theorem stepIf_endsWithoutBuild (present : Bool) (r : Word) (s : State) : EndsWithoutBuild s (stepIf present r s) := by
  cases present
  · exact .inl ⟨_, rfl⟩
  · exact .inr ⟨_, rfl⟩

/-! ## What a step that serves no reset does -/

/-- The next act is an access or a raced command of port `p`, and `rest` comes after it. -/
def ActsNext (s : State) (p : Nat) (rest : List Event) : Prop :=
  (∃ op, s.events = .access p op :: rest) ∨ (∃ v held draws, s.events = .race p v held draws :: rest)

/-- There is one next act, so one port that makes it. -/
theorem ActsNext.port_eq {p' : Nat} {rest' : List Event} (h : ActsNext s p rest) (h' : ActsNext s p' rest') :
    p = p' := by
  obtain ⟨_, e⟩ | ⟨_, _, _, e⟩ := h <;> obtain ⟨_, e'⟩ | ⟨_, _, _, e'⟩ := h' <;> cases e.symm.trans e' <;> rfl

/-- Every step but one that serves a reset: no port does anything; a port has its registers accessed; a port runs a
command, plain or raced, which sees the memory `m` and leaves the memory `m'`. -/
inductive PlainStep (s : State) : State → Prop where
  | idle (events : List Event) (m : Memory) (hm : Memory.wf s.mem = true → Memory.wf m = true) :
      PlainStep s { s with events := events, mem := m }
  | registers (p : Nat) (q q' : Port) (rest : List Event) (acts : ActsNext s p rest) (port : s.ports[p]? = some q)
      (write : PortWrite q q') : PlainStep s ((served s p rest).setPort q')
  | command (p : Nat) (q : Port) (rest : List Event) (v : Reg) (u : State) (m m' : Memory) (acts : ActsNext s p rest)
      (port : s.ports[p]? = some q) (issued : CmdWriteNext s p v)
      (ends : CommandEnd { served s p rest with mem := m } (decode v) u)
      (hm : Memory.wf s.mem = true → Memory.wf m' = true) : PlainStep s { u with mem := m' }

/-- An access that takes place is a plain step. -/
theorem plainStep_of_hostOp {op : HostOp} (he : s.events = .access p op :: rest) (hq : s.ports[p]? = some q)
    (h : hostOp op (served s p rest) = .next t) : PlainStep s t := by
  have acts : ActsNext s p rest := .inl ⟨op, he⟩
  have hport : (served s p rest).port = q := served_port hq
  obtain rfl | ⟨q', rfl, hres, hstatus, -⟩ | ⟨v, hop, hc⟩ := hostOp_cases h
  · rw [← setPort_port (issuerExists_served hq), hport]
    exact .registers p _ _ rest acts hq (.of_eq rfl rfl)
  · rw [hport] at hres hstatus
    exact .registers p _ _ rest acts hq (.of_eq hres hstatus)
  · have issued : CmdWriteNext s p v := by
      obtain rfl | ⟨rfl, hv⟩ := hop
      · exact .inl ⟨rest, he⟩
      · exact .inr (.inl ⟨rest, q, he, hq, by rw [hv, hport]⟩)
    have hend := command_end hc
    have hmem : t.mem = s.mem := hend.outside.2.1
    exact .command p q rest v t s.mem t.mem acts hq issued hend (by rw [hmem]; exact id)

/-- A raced command that takes place is a plain step. -/
theorem plainStep_of_raced {v : Reg} {held draws : List (Reg × Byte)} (he : s.events = .race p v held draws :: rest)
    (hq : s.ports[p]? = some q) (h : racedCommand v held draws (served s p rest) = .next t) : PlainStep s t := by
  obtain ⟨-, u, hu, rfl⟩ := racedCommand_cases h
  exact .command p q rest v u _ _ (.inr ⟨v, held, draws, he⟩) hq (.inr (.inr ⟨held, draws, rest, he⟩))
    (command_end hu) (writeAll_wf held)

/-- A step serves a reset or is a plain step. -/
theorem step_reset_or_plain (h : step s = .next t) :
    (∃ a b rest, s.events = .reset a b :: rest ∧ t = resetBlock a b { s with events := rest }) ∨ PlainStep s t := by
  obtain ⟨-, rfl⟩ | ⟨a, b, rest, he, -, rfl⟩ | ⟨a, b, rest, -, rfl⟩ |
    ⟨p, ev, rest, q, he, -, hq, ⟨-, rfl⟩ | ⟨-, ⟨op, rfl, h⟩ | ⟨v, held, draws, rfl, h⟩⟩⟩ := step_cases h
  · exact .inr (.idle t.events t.mem id)
  · exact .inl ⟨a, b, rest, he, rfl⟩
  · exact .inr (.idle rest _ (write_wf a b))
  · exact .inr (.idle rest s.mem id)
  · exact .inr (plainStep_of_hostOp he hq h)
  · exact .inr (plainStep_of_raced he hq h)

theorem plainStep_of_step (h : step s = .next t) (hr : ∀ a b rest, s.events ≠ .reset a b :: rest) : PlainStep s t := by
  obtain ⟨a, b, rest, he, -⟩ | h := step_reset_or_plain h
  · exact absurd he (hr a b rest)
  · exact h

namespace PlainStep

theorem plat (h : PlainStep s t) : t.plat = s.plat := by
  cases h with
  | idle events m hm => rfl
  | registers p q q' rest acts port write => rfl
  | command p q rest v u m m' acts port issued ends hm => exact ends.outside.1

/-- At most the port that acts changes, and as `PortWrite` allows. -/
theorem ports (h : PlainStep s t) :
    t.ports = s.ports ∨ ∃ p q q' rest, ActsNext s p rest ∧ s.ports[p]? = some q ∧ PortWrite q q' ∧
      t.ports = s.ports.set p q' := by
  cases h with
  | idle events m hm => exact .inl rfl
  | registers p q q' rest acts port write => exact .inr ⟨p, q, q', rest, acts, port, write, rfl⟩
  | command p q rest v u m m' acts port issued ends hm =>
    obtain ⟨q', hset, hend⟩ := ends.ports
    have hw : PortWrite (served s p rest).port q' := hend.write
    rw [served_port port] at hw
    exact .inr ⟨p, q, q', rest, acts, port, hw, hset⟩

theorem ports_length (h : PlainStep s t) : t.ports.length = s.ports.length := by
  obtain e | ⟨p, q, q', rest, -, -, -, e⟩ := h.ports <;> simp [e]

/-- The table store after a plain step: lazily built, or slot 2 built by a `TBUILD` that was issued. -/
theorem tables (h : PlainStep s t) :
    LazilyBuilt s t ∨ (CustomBuilt s t ∧ ∃ p v, decode v = .instr .tbuild ∧ CmdWriteNext s p v) := by
  cases h with
  | idle events m hm => exact .inl (lazilyBuilt_of_kept ⟨rfl, rfl, rfl, rfl⟩)
  | registers p q q' rest acts port write => exact .inl (lazilyBuilt_of_kept ⟨rfl, rfl, rfl, rfl⟩)
  | command p q rest v u m m' acts port issued ends hm =>
    obtain h | ⟨hd, h⟩ := ends.tables
    · exact .inl h
    · exact .inr ⟨h, p, v, hd, issued⟩

theorem mem_wf (h : PlainStep s t) (hs : Memory.wf s.mem = true) : Memory.wf t.mem = true := by
  cases h with
  | idle events m hm => exact hm hs
  | registers p q q' rest acts port write => exact hs
  | command p q rest v u m m' acts port issued ends hm => exact hm hs

theorem issuerExists (h : PlainStep s t) (hs : IssuerExists s) : IssuerExists t := by
  have hlen := h.ports_length
  cases h with
  | idle events m hm => exact hs
  | registers p q q' rest acts port write => exact (issuerExists_setPort _ _).2 (issuerExists_served port)
  | command p q rest v u m m' acts port issued ends hm =>
    obtain ⟨-, -, -, hcur⟩ := ends.outside
    rw [IssuerExists, hlen]
    exact hcur ▸ issuerExists_served (rest := rest) port

theorem portLegal (h : PlainStep s t) (hs : ∀ x ∈ s.ports, PortLegal x) : ∀ x ∈ t.ports, PortLegal x := by
  obtain e | ⟨p, q, q', rest, -, hq, hw, e⟩ := h.ports <;> rw [e]
  · exact hs
  · exact forall_mem_set hs (hw.legal (hs q (List.mem_of_getElem? hq)))

theorem inv (h : PlainStep s t) (hs : s.Inv) : t.Inv := by
  obtain ⟨hissuer, hports, htables, hmem⟩ := hs
  have built : TablesBuilt t := by
    obtain h | ⟨h, -⟩ := h.tables
    · exact h.tablesBuilt htables
    · exact h.tablesBuilt htables
  exact ⟨h.issuerExists hissuer, h.portLegal hports, built, h.mem_wf hmem⟩

end PlainStep

/-! ## Reset -/

theorem portLegal_reset : PortLegal Port.reset :=
  ⟨by decide, by decide, by decide, by decide, by decide⟩

theorem inv_resetWith (plat : Platform) {n : Nat} {m : Memory} (hn : 0 < n) (hm : Memory.wf m = true) :
    (State.resetWith plat n m).Inv := by
  refine ⟨by simpa [IssuerExists, State.resetWith] using hn, fun x hx => ?_, ⟨?_, ?_, ?_⟩, hm⟩
  · rw [List.eq_of_mem_replicate hx]; exact portLegal_reset
  all_goals exact fun h => absurd h Bool.false_ne_true

theorem inv_resetBlock (capN capW : Bool) (h : s.Inv) : (resetBlock capN capW s).Inv := by
  obtain ⟨hissuer, -, -, hmem⟩ := h
  exact inv_resetWith { s.plat with capN := capN, capW := capW } (Nat.zero_lt_of_lt hissuer) hmem

@[simp] theorem resetBlock_ports_length (capN capW : Bool) (s : State) :
    (resetBlock capN capW s).ports.length = s.ports.length := by
  simp [resetBlock, State.resetWith]

/-! ## One access -/

/-- A step serves the next act, with the others to come. -/
theorem step_cons {ev : Event} (he : s.events = ev :: rest) : step s = serve ev { s with events := rest } := by
  simp [step, he]

/-- An access on a port that exists and is not stuck takes place (10_state.md rule R32). -/
theorem step_access {op : HostOp} (he : s.events = .access p op :: rest) (hq : s.ports[p]? = some q)
    (hs : q.stuck = false) : step s = hostOp op (served s p rest) := by
  rw [step_cons he]
  obtain ⟨hp, -⟩ | ⟨x, hx, h⟩ := onPort_cases p (hostOp op) { s with events := rest }
  · exact absurd (List.getElem?_eq_some_iff.1 hq).1 (Nat.not_lt.2 hp)
  · cases hq.symm.trans hx
    obtain ⟨h, -⟩ | ⟨-, h⟩ := h
    · exact absurd (hs.symm.trans h) Bool.false_ne_true
    · exact h

/-- The registers a host reads, by number (10_state.md rules R21, R32). -/
theorem readReg_eq_getElem? (n : Nat) (s : State) :
    readReg s n = [s.port.prev, s.port.ptr, s.port.len, s.port.data, s.port.res, s.port.status, capWord s.plat,
      0#64][n]? := by
  rcases n with _ | _ | _ | _ | _ | _ | _ | _ | n <;> rfl

theorem hostRead_of_readReg {n : Nat} {v : Reg} (h : readReg s n = some v) :
    hostRead n s = .next (s.setPort { s.port with rdata := v }) := by
  simp [hostRead, h]

/-- A host write below `CMD` replaces the port by the one the register's row says (10_state.md rule R32). -/
theorem writeReg_eq_setPort {n : Nat} {v : Reg} (h : IssuerExists s)
    (hq : [{ s.port with prev := v }, { s.port with ptr := v }, { s.port with len := v }, { s.port with data := v },
      s.port, s.port, s.port][n]? = some q) : writeReg n v s = .next (s.setPort q) := by
  have ignored : Host.Outcome.next s = (.next (s.setPort s.port) : Result) := by rw [setPort_port h]
  rcases n with _ | _ | _ | _ | _ | _ | _ | n <;> cases hq
  case succ.succ.succ.succ.zero => exact ignored
  case succ.succ.succ.succ.succ.zero => exact ignored
  case succ.succ.succ.succ.succ.succ.zero => exact ignored
  all_goals rfl

theorem capWord_getLsbD_zero (c : Platform) : (capWord c).getLsbD 0 = c.capN := by
  rw [capWord, BitVec.getLsbD_setWidth, BitVec.getLsbD_append]; simp

theorem capWord_getLsbD_one (c : Platform) : (capWord c).getLsbD 1 = c.capW := by
  rw [capWord, BitVec.getLsbD_setWidth, BitVec.getLsbD_append]; simp

theorem capWord_toNat_lt (c : Platform) : (capWord c).toNat < 4 := by
  rw [capWord, BitVec.toNat_setWidth_of_le (by decide)]
  exact BitVec.isLt _

end Sys2Proof.Machine
end

section
/-!
PROOFS. The state and the host's accesses, part 2: the obligations of 10_state.md, each from the lemmas of part 1.
-/

namespace Sys2Proof.Machine

/-- Settles O14: a reset answers a reset state, and every other step is a plain step. -/
theorem everyStepKeepsTheInvariant : Obligations.EveryStepKeepsTheInvariant := by
  intro s t hinv hstep
  obtain ⟨a, b, rest, -, rfl⟩ | h := step_reset_or_plain hstep
  · exact inv_resetBlock a b hinv
  · exact h.inv hinv

/-- Settles O15: the only writer of the Capability Flags is `resetBlock`, and it keeps the rest of the platform. -/
theorem flagsAreConstantBetweenResets : Obligations.FlagsAreConstantBetweenResets := by
  intro s t hstep
  obtain ⟨a, b, rest, he, rfl⟩ | h := step_reset_or_plain hstep
  · exact ⟨by simp, rfl, fun hr => absurd he (hr a b rest)⟩
  · exact ⟨h.ports_length, by rw [h.plat], fun _ => h.plat⟩

/-- Settles O16: a plain step builds lazily or constructs the custom engine. -/
theorem validTablesStayUntilReset : Obligations.ValidTablesStayUntilReset := by
  intro s t hstep hr
  obtain ⟨h0, h1, h2, hc⟩ | ⟨⟨h0, h1, h2⟩, issued⟩ := (plainStep_of_step hstep hr).tables
  · exact ⟨h0, h1, by rw [h2]; exact id, .inl ⟨h2, hc⟩⟩
  · exact ⟨.inl h0, .inl h1, fun _ => by rw [h2], .inr issued⟩

/-- Settles O17: a plain step writes `STATUS` of the acting port as `StatusWrite` says, and no other. -/
theorem stickyBitsStayUntilReset : Obligations.StickyBitsStayUntilReset := by
  intro s t p q r hstep hr hq hr'
  have hsame : s.ports[p]? = some r →
      (snsField q.status = true → snsField r.status = true) ∧ (siaField q.status = true → siaField r.status = true) := by
    intro h
    cases hq.symm.trans h
    exact ⟨id, id⟩
  obtain e | ⟨p', x, y, rest, -, hx, hw, e⟩ := (plainStep_of_step hstep hr).ports <;> rw [e] at hr'
  · exact hsame hr'
  · obtain rfl | hne := eq_or_ne p' p
    · rw [List.getElem?_set_self (List.getElem?_eq_some_iff.1 hq).1] at hr'
      cases hr'
      cases hq.symm.trans hx
      exact hw.2.sticky
    · rw [List.getElem?_set_ne hne] at hr'
      exact hsame hr'

/-- Settles O18, from the four ways a command ends. -/
theorem commandsLeaveOperandsPortsAndMemory : Obligations.CommandsLeaveOperandsPortsAndMemory := by
  intro i s t hissuer hexec
  obtain ⟨q, hset, hend⟩ := (exec_end hexec).ports
  obtain ⟨hplat, hmem, hevents, hcur⟩ := (exec_end hexec).outside
  have others : OtherPortsKept s t := by
    rw [OtherPortsKept, hset]
    exact otherPortsKept_setPort s q
  rw [port_of_ports_set hissuer hset hcur]
  exact ⟨hend.prev, hend.ptr, hend.len, hend.data, hend.rdata, hend.write.2.upper, others, hplat,
    fun a => by rw [hmem], hevents, hcur⟩

/-- Settles O19, command by command. -/
theorem tableStoreChangesOnlyAsDocumented : Obligations.TableStoreChangesOnlyAsDocumented := by
  intro i s t hexec
  cases i with
  | supp e => exact (execSupp_endsWithoutBuild e s).tableStoreKept hexec
  | poly e => exact (execPoly_endsWithoutBuild e s).tableStoreKept hexec
  | comp e => exact lazilyBuilt_of_exec Instr.noConfusion hexec
  | compf e => exact lazilyBuilt_of_exec Instr.noConfusion hexec
  | sel e => exact (execSel_endsWithoutBuild e s).tableStoreKept hexec
  | tbuild => cases hexec; exact ⟨rfl, rfl⟩
  | tread e => exact lazilyBuilt_of_exec Instr.noConfusion hexec
  | cstepB => exact (stepIf_endsWithoutBuild _ _ s).tableStoreKept hexec
  | cstepH => exact (stepIf_endsWithoutBuild _ _ s).tableStoreKept hexec
  | cstepW => exact (stepIf_endsWithoutBuild _ _ s).tableStoreKept hexec
  | cstepD => exact (stepIf_endsWithoutBuild _ _ s).tableStoreKept hexec

/-- Settles O50: a step changes at most the port whose act it serves. -/
theorem portsReachOnlyTheirOwnRegisters : Obligations.PortsReachOnlyTheirOwnRegisters := by
  intro s t p q rest hne hstep hacts
  have hr : ∀ a b rest, s.events ≠ .reset a b :: rest := by
    intro a b rest' he
    obtain ⟨_, e⟩ | ⟨_, _, _, e⟩ := hacts <;> cases e.symm.trans he
  obtain e | ⟨p', x, y, rest', hacts', -, -, e⟩ := (plainStep_of_step hstep hr).ports
  · rw [e]
  · obtain rfl := ActsNext.port_eq hacts hacts'
    rw [e, List.getElem?_set_ne hne.symm]

/-- Settles O5. -/
theorem stepRunsTheDecodedCommand : Obligations.StepRunsTheDecodedCommand := by
  intro s p q v i rest he hq hs hd
  rw [step_access he hq hs]
  simp [hostOp, hostWrite, command, hd]

/-- Settles O6. -/
theorem blockWaitsForTheNextWrite : Obligations.BlockWaitsForTheNextWrite := by
  intro s he
  simp [step, he]

/-- Settles O7: the registers by number, `readReg_eq_getElem?`. -/
theorem hostReadReturnsTheRegister : Obligations.HostReadReturnsTheRegister := by
  intro s p n q rest he hq hs
  have hport : (served s p rest).port = q := served_port hq
  have hread := readReg_eq_getElem? n (served s p rest)
  rw [step_access he hq hs, hostOp]
  rw [hport] at hread
  refine ⟨fun v hv => ?_, fun hn => ?_⟩
  · rw [hostRead_of_readReg (hread.trans hv), hport]; rfl
  · obtain ⟨v, hv, -⟩ | ⟨-, h⟩ := hostRead_cases n (served s p rest)
    · rw [hread, List.getElem?_eq_none hn] at hv; cases hv
    · exact h

/-- Settles O8: the registers by number, `writeReg_eq_setPort`. -/
theorem hostWriteReplacesTheRegister : Obligations.HostWriteReplacesTheRegister := by
  intro s p n v q rest he hq hs
  have hport : (served s p rest).port = q := served_port hq
  rw [step_access he hq hs]
  refine ⟨fun q' hq' => ?_, fun hn => ?_⟩
  · have hn : n < 7 := (List.getElem?_eq_some_iff.1 hq').1
    rw [hostOp, hostWrite, if_neg hn.ne, writeReg_eq_setPort (issuerExists_served hq) (hport.symm ▸ hq')]
    rfl
  · rw [hostOp, hostWrite, if_neg (by omega)]
    obtain ⟨h, -⟩ | ⟨-, h, -⟩ | ⟨-, h⟩ := writeReg_cases n v (served s p rest)
    · omega
    · omega
    · exact h

/-- Settles O9. -/
theorem accessOnAnAbsentPortIsRefused : Obligations.AccessOnAnAbsentPortIsRefused := by
  intro s p op rest he hp
  rw [step_cons he]
  obtain ⟨-, h⟩ | ⟨x, hx, -⟩ := onPort_cases p (hostOp op) { s with events := rest }
  · exact h
  · exact absurd (List.getElem?_eq_some_iff.1 hx).1 (Nat.not_lt.2 hp)

/-- Settles O10: register 6 reads `capWord`, whose bits are the flags. -/
theorem capShowsTheCapabilityFlags : Obligations.CapShowsTheCapabilityFlags := by
  intro s p q rest hq hs
  refine ⟨fun he => ?_, fun v he => step_access he hq hs⟩
  have hread := (hostReadReturnsTheRegister s p 6 q rest he hq hs).1 (capWord s.plat) rfl
  have hp : p < s.ports.length := (List.getElem?_eq_some_iff.1 hq).1
  exact ⟨_, _, hread, List.getElem?_set_self hp, capWord_getLsbD_zero _, capWord_getLsbD_one _, capWord_toNat_lt _⟩

/-- Settles O12: `resetBlock` puts `Port.reset` at every port and `Slot.reset` in every slot. -/
theorem resetLeavesTheResetValues : Obligations.ResetLeavesTheResetValues := by
  intro s capN capW rest he
  rw [step_cons he]
  obtain ⟨hfree, h⟩ | ⟨⟨x, hx, hstuck⟩, h⟩ := resetAct_cases capN capW { s with events := rest }
  · refine ⟨fun _ => ⟨_, h, by simp, fun q hq => ?_, rfl, rfl, rfl, rfl, rfl, rfl⟩, fun ⟨q, hq, hstuck⟩ => ?_⟩
    · rw [List.eq_of_mem_replicate hq]
      exact ⟨rfl, rfl, rfl, rfl, rfl, rfl, rfl⟩
    · exact absurd ((hfree q hq).symm.trans hstuck) Bool.false_ne_true
  · exact ⟨fun hfree => absurd ((hfree x hx).symm.trans hstuck) Bool.false_ne_true, fun _ => h⟩

/-- Settles O13. -/
theorem resetStateMeetsTheInvariant : Obligations.ResetStateMeetsTheInvariant :=
  ⟨fun plat _ _ => inv_resetWith plat, inv_resetWith platformAtReset Nat.one_pos rfl⟩

end Sys2Proof.Machine
end

section
/-!
PROOFS. Buffer memory, part 1: which commands look at memory, what a fold records as read, what a canonical memory and a
list of writes read as, and the acts of other agents (20_memory.md rules R50 to R62).
-/

namespace Sys2Proof.Machine

variable {s : State} {p : Nat} {q : Port} {rest : List Event} {e : EngId} {k : Engine} {m m' : Memory}

/-! ## Commands that do not look at memory -/

/-- The state with the contents of buffer memory replaced. -/
def State.withMem (m : Memory) (s : State) : State := { s with mem := m }

/-- The outcome with the contents of buffer memory replaced in its next state. -/
def resultWithMem (m : Memory) : Result → Result
  | .next t => .next (t.withMem m)
  | .fault r => .fault r
  | .refused r => .refused r

/-- Replacing memory before the operation is replacing it after: the operation neither reads nor writes it. -/
def IgnoresMem (f : State → Result) : Prop := ∀ m s, f (s.withMem m) = resultWithMem m (f s)

theorem plat_withMem (m : Memory) (s : State) : (s.withMem m).plat = s.plat := rfl

theorem columnOperand_withMem (m : Memory) (s : State) : columnOperand (s.withMem m) = columnOperand s := rfl

theorem rowOperand_withMem (m : Memory) (s : State) : rowOperand (s.withMem m) = rowOperand s := rfl

theorem target_withMem (e : EngId) (m : Memory) (s : State) : target (s.withMem m) e = target s e := rfl

theorem polyOf_withMem (k : Engine) (m : Memory) (s : State) : polyOf (s.withMem m) k = polyOf s k := by
  cases k <;> rfl

theorem needTable_withMem (k : Engine) (m : Memory) (s : State) :
    needTable k (s.withMem m) = (needTable k s).withMem m := by
  cases k <;> rfl

theorem tableOf_withMem (k : Engine) (m : Memory) (s : State) : tableOf (s.withMem m) k = tableOf s k := by
  cases k <;> rfl

theorem ignoresMem_raise (f : EzFault) : IgnoresMem (raise f) := fun _ _ => rfl

theorem ignoresMem_complete (r : Word) : IgnoresMem (complete r) := fun _ _ => rfl

theorem ignoresMem_execSupp (e : EngId) : IgnoresMem (execSupp e) := by
  intro m s
  unfold execSupp
  rw [target_withMem]
  cases target s e with
  | none => exact ignoresMem_raise _ m s
  | some k => exact ignoresMem_complete _ m s

theorem ignoresMem_execPoly (e : EngId) : IgnoresMem (execPoly e) := by
  intro m s
  unfold execPoly
  rw [target_withMem]
  cases target s e with
  | none => exact ignoresMem_raise _ m s
  | some k =>
    dsimp only
    rw [polyOf_withMem]
    exact ignoresMem_complete _ m s

theorem ignoresMem_execSel (e : EngId) : IgnoresMem (execSel e) := by
  intro m s
  unfold execSel
  rw [plat_withMem]
  cases resolve s.plat e with
  | none => exact ignoresMem_raise _ m s
  | some k => exact ignoresMem_complete _ m s

theorem ignoresMem_readEntry (k : Engine) : IgnoresMem (readEntry k) := by
  intro m s
  unfold readEntry
  simp only [needTable_withMem, tableOf_withMem, columnOperand_withMem, rowOperand_withMem]
  cases tableOf (needTable k s) k with
  | none => exact ignoresMem_raise _ m s
  | some t =>
    dsimp only
    cases entryAt t (columnOperand s) (rowOperand s) with
    | none => exact ignoresMem_raise _ m s
    | some r => exact ignoresMem_complete r m (needTable k s)

theorem ignoresMem_execTread (e : EngId) : IgnoresMem (execTread e) := by
  intro m s
  unfold execTread
  rw [target_withMem]
  cases target s e with
  | none => exact ignoresMem_raise _ m s
  | some k => exact ignoresMem_readEntry k m s

theorem stepIf_withMem (present : Bool) (r : Word) (m : Memory) (s : State) :
    stepIf present r (s.withMem m) = resultWithMem m (stepIf present r s) := by
  cases present
  · exact ignoresMem_raise _ m s
  · exact ignoresMem_complete r m s

/-- No command but COMP and COMPF reads memory (20_memory.md rule R50). -/
theorem ignoresMem_exec {i : Instr} (hi : ∀ e, i ≠ .comp e ∧ i ≠ .compf e) : IgnoresMem (exec i) := by
  intro m s
  cases i with
  | supp e => exact ignoresMem_execSupp e m s
  | poly e => exact ignoresMem_execPoly e m s
  | comp e => exact absurd rfl (hi e).1
  | compf e => exact absurd rfl (hi e).2
  | sel e => exact ignoresMem_execSel e m s
  | tbuild => rfl
  | tread e => exact ignoresMem_execTread e m s
  | cstepB => exact stepIf_withMem _ _ m s
  | cstepH => exact stepIf_withMem _ _ m s
  | cstepW => exact stepIf_withMem _ _ m s
  | cstepD => exact stepIf_withMem _ _ m s

/-- No value written to `CMD` reads memory, reserved encodings included, unless it is a COMP or COMPF. -/
theorem ignoresMem_command {v : Reg} (hv : ∀ e, decode v ≠ .instr (.comp e) ∧ decode v ≠ .instr (.compf e)) :
    IgnoresMem (command v) := by
  intro m s
  unfold command
  cases hd : decode v with
  | reserved r => exact ignoresMem_raise _ m s
  | instr i =>
    refine ignoresMem_exec (fun e => ⟨?_, ?_⟩) m s
    · rintro rfl; exact (hv e).1 hd
    · rintro rfl; exact (hv e).2 hd

/-! ## A buffer with an unreadable byte -/

theorem argsOk_of_argsGood (h : ArgsGood s) : argsOk s.port.ptr s.port.len = true :=
  (argsOk_iff _ _).2 h

theorem bufferReadable_eq_false (h : ¬ BufferReadable s) :
    bufferReadable s.plat s.port.ptr.toNat s.port.len.toNat = false :=
  Bool.eq_false_iff.2 fun hr => h ((bufferReadable_iff _ _ _).1 hr)

/-- Of the ways `compute_from` ends, the stuck port is the one left (20_memory.md rule R58). -/
theorem computeFrom_eq_stall (seed : Word) (ht : target s e = some k) (hs : supported s.plat k = true)
    (ha : ArgsGood s) (hb : ¬ BufferReadable s) : computeFrom e seed s = stall s := by
  obtain ⟨hnone, -⟩ | ⟨j, hj, h⟩ := computeFrom_cases e seed s
  · cases ht.symm.trans hnone
  · cases ht.symm.trans hj
    simpa [hs, argsOk_of_argsGood ha, bufferReadable_eq_false hb] using h

/-! ## What a fold records as read -/

/-- The first `n` buffer bytes from `a` up have been read, once each and ascending, and no other. -/
def ReadUpTo (a n : Nat) (x : Transient) : Prop := x.reads = List.range' a n ∧ x.pos = n

/-- One iteration reads the next `w` buffer bytes, ascending, and counts them. -/
def ReadsNext (a w : Nat) (f : Transient → Transient) : Prop :=
  ∀ x, (f x).reads = x.reads ++ List.range' (a + x.pos) w ∧ (f x).pos = x.pos + w

theorem readsNext_blockStep (t : Table) (m : Memory) (a : Nat) : ReadsNext a Config.gblk (blockStep t m a) :=
  fun _ => ⟨rfl, rfl⟩

theorem readsNext_byteStep (t : Table) (m : Memory) (a : Nat) : ReadsNext a 1 (byteStep t m a) :=
  fun _ => ⟨rfl, rfl⟩

theorem readsNext_hwnStep (m : Memory) (a : Nat) : ReadsNext a Config.hnb (hwnStep m a) :=
  fun _ => ⟨rfl, rfl⟩

theorem readsNext_hwwStep (m : Memory) (a : Nat) : ReadsNext a Config.hwb (hwwStep m a) :=
  fun _ => ⟨rfl, rfl⟩

theorem readsNext_hwByteStep (m : Memory) (a : Nat) : ReadsNext a 1 (hwByteStep m a) :=
  fun _ => ⟨rfl, rfl⟩

theorem readUpTo_startFold (a : Nat) (seed : Word) : ReadUpTo a 0 (startFold seed) := ⟨rfl, rfl⟩

theorem ReadsNext.readUpTo {a w n : Nat} {f : Transient → Transient} {x : Transient} (hf : ReadsNext a w f)
    (hx : ReadUpTo a n x) : ReadUpTo a (n + w) (f x) := by
  obtain ⟨hreads, hpos⟩ := hx
  obtain ⟨hreads', hpos'⟩ := hf x
  refine ⟨?_, by rw [hpos', hpos]⟩
  rw [hreads', hreads, hpos, List.range'_append_1]

theorem ReadsNext.readUpTo_times {a w : Nat} {f : Transient → Transient} (hf : ReadsNext a w f) :
    ∀ (j : Nat) {n : Nat} {x : Transient}, ReadUpTo a n x → ReadUpTo a (n + w * j) (times f j x)
  | 0, _, _, hx => hx
  | j + 1, n, x, hx => by
    have h := hf.readUpTo_times j (hf.readUpTo hx)
    rwa [Nat.add_assoc, Nat.add_comm w, ← Nat.mul_succ] at h

/-- A loop of `w`-byte iterations and its tail of bytes read the whole buffer (20_memory.md rule R53). -/
theorem readUpTo_fold {a w : Nat} {f g : Transient → Transient} (hf : ReadsNext a w f) (hg : ReadsNext a 1 g)
    (seed : Word) (n : Nat) : ReadUpTo a n (times g (n % w) (times f (n / w) (startFold seed))) := by
  have h := hg.readUpTo_times (n % w) (hf.readUpTo_times (n / w) (readUpTo_startFold a seed))
  rwa [Nat.zero_add, Nat.one_mul, Nat.div_add_mod] at h

/-! ## Canonical memories -/

theorem read_cons_self (a : Nat) (b : Byte) (m : Memory) : Memory.read ((a, b) :: m) a = b := by
  rw [read_cons, if_pos rfl]

/-- An entry of a canonical memory is not below the first address of another that reads the same. -/
theorem le_of_read_cons_eq {a lo : Nat} {b : Byte} (hb : b ≠ unlistedByte) (hm' : Memory.wfFrom lo m' = true)
    (h : Memory.read ((a, b) :: m) a = Memory.read m' a) : lo ≤ a := by
  by_contra hlt
  rw [read_cons_self, read_below hm' (Nat.not_le.1 hlt)] at h
  exact hb h

/-- Entries behind equal heads read the same: at the head's address, neither is listed. -/
theorem read_tail_eq {a : Nat} {b b' : Byte} (hm : Memory.wfFrom (a + 1) m = true)
    (hm' : Memory.wfFrom (a + 1) m' = true) {x : Nat}
    (h : Memory.read ((a, b) :: m) x = Memory.read ((a, b') :: m') x) : Memory.read m x = Memory.read m' x := by
  obtain rfl | hx := eq_or_ne a x
  · rw [read_below hm (Nat.lt_succ_self a), read_below hm' (Nat.lt_succ_self a)]
  · rwa [read_cons, read_cons, if_neg hx, if_neg hx] at h

/-- Canonical memories from `lo` on that read the same are equal, entry by entry. -/
theorem eq_of_read_eq : ∀ {m m' : Memory} {lo : Nat}, Memory.wfFrom lo m = true → Memory.wfFrom lo m' = true →
    (∀ a < 2 ^ 64, Memory.read m a = Memory.read m' a) → m = m'
  | [], [], _, _, _, _ => rfl
  | [], (a, b) :: m', _, _, hw', h => by
    obtain ⟨-, ha, hb, -⟩ := wfFrom_cons.1 hw'
    have hread := h a ha
    rw [read_cons_self, read_nil] at hread
    exact absurd hread.symm hb
  | (a, b) :: m, [], _, hw, _, h => by
    obtain ⟨-, ha, hb, -⟩ := wfFrom_cons.1 hw
    have hread := h a ha
    rw [read_cons_self, read_nil] at hread
    exact absurd hread hb
  | (a, b) :: m, (a', b') :: m', _, hw, hw', h => by
    obtain ⟨-, ha, hb, hm⟩ := wfFrom_cons.1 hw
    obtain ⟨-, ha', hb', hm'⟩ := wfFrom_cons.1 hw'
    have hle : a' ≤ a := le_of_read_cons_eq hb (wfFrom_cons.2 ⟨le_rfl, ha', hb', hm'⟩) (h a ha)
    have hge : a ≤ a' := le_of_read_cons_eq hb' (wfFrom_cons.2 ⟨le_rfl, ha, hb, hm⟩) (h a' ha').symm
    obtain rfl := Nat.le_antisymm hge hle
    have hhead := h a ha
    rw [read_cons_self, read_cons_self] at hhead
    rw [hhead, eq_of_read_eq hm hm' fun x hx => read_tail_eq hm hm' (h x hx)]

theorem writeAll_cons (m : Memory) (w : Reg × Byte) (ws : List (Reg × Byte)) :
    Memory.writeAll m (w :: ws) = Memory.writeAll (Memory.write m w.1.toNat w.2) ws := rfl

/-- After a list of writes a byte is as before or one of those written at its address. -/
theorem read_writeAll_cases (x : Nat) : ∀ (ws : List (Reg × Byte)) {m : Memory}, Memory.wf m = true →
    Memory.read (Memory.writeAll m ws) x = Memory.read m x ∨
      ∃ w ∈ ws, w.1.toNat = x ∧ w.2 = Memory.read (Memory.writeAll m ws) x
  | [], _, _ => .inl rfl
  | w :: ws, m, hm => by
    rw [writeAll_cons]
    obtain h | ⟨d, hd, h⟩ := read_writeAll_cases x ws (write_wf w.1 w.2 hm)
    · rw [h, read_write hm]
      split
      · exact .inr ⟨w, List.mem_cons_self, ‹x = _›.symm, rfl⟩
      · exact .inl rfl
    · exact .inr ⟨d, List.mem_cons_of_mem w hd, h⟩

/-! ## Acts of a port, plain and raced -/

theorem ports_getD (hq : s.ports[p]? = some q) : s.ports.getD p Port.reset = q := by
  rw [List.getD_eq_getElem?_getD, hq, Option.getD_some]

/-- A port that exists and is not stuck acts. -/
theorem onPort_of_free (f : State → Result) (hq : s.ports[p]? = some q) (hs : q.stuck = false) :
    onPort p f s = f { s with cur := p } := by
  have hp : p < s.ports.length := (List.getElem?_eq_some_iff.1 hq).1
  simp only [onPort, hp, ports_getD hq, hs, if_true, Bool.false_eq_true, if_false]

/-- What a stuck port would do does not take place (60_exceptions.md rule R182). -/
theorem onPort_of_stuck (f : State → Result) (hq : s.ports[p]? = some q) (hs : q.stuck = true) :
    onPort p f s = .next s := by
  have hp : p < s.ports.length := (List.getElem?_eq_some_iff.1 hq).1
  simp only [onPort, hp, ports_getD hq, hs, if_true]

theorem drawsHeld_iff (m : Memory) (held draws : List (Reg × Byte)) :
    drawsHeld m held draws = true ↔ ∀ d ∈ draws, Memory.read m d.1.toNat = d.2 ∨ d ∈ held := by
  simp [drawsHeld]

/-- A raced command whose draws were held runs on the drawn bytes, then the writes land (20_memory.md rule R62). -/
theorem racedCommand_of_drawsHeld {v : Reg} {held draws : List (Reg × Byte)} {t : State}
    (hd : drawsHeld s.mem held draws = true)
    (h : command v { s with mem := Memory.writeAll s.mem draws } = .next t) :
    racedCommand v held draws s = .next { t with mem := Memory.writeAll s.mem held } := by
  rw [racedCommand, if_pos hd, h, landWrites]

/-- On memory with the draws written every byte is the one before or one written during the command. -/
theorem read_draws_held {held draws : List (Reg × Byte)} (hm : Memory.wf m = true)
    (hd : ∀ d ∈ draws, Memory.read m d.1.toNat = d.2 ∨ d ∈ held) (x : Nat) :
    Memory.read (Memory.writeAll m draws) x = Memory.read m x ∨
      ∃ d ∈ held, d.1.toNat = x ∧ d.2 = Memory.read (Memory.writeAll m draws) x := by
  obtain h | ⟨d, hmem, rfl, hval⟩ := read_writeAll_cases x draws hm
  · exact .inl h
  · obtain hbefore | hheld := hd d hmem
    · exact .inl (by rw [← hval, hbefore])
    · exact .inr ⟨d, hheld, rfl, hval⟩

end Sys2Proof.Machine
end

section
/-!
PROOFS. Buffer memory, part 2: the obligations of 20_memory.md, each from the lemmas of part 1.
-/

namespace Sys2Proof.Machine

/-- Settles O20: no command writes memory, and none but COMP and COMPF reads it. -/
theorem onlyCompAndCompfReadMemory : Obligations.OnlyCompAndCompfReadMemory := by
  refine ⟨fun v s t h => ?_, fun v s t m hv h => ?_⟩
  · obtain ⟨-, hmem, -, -⟩ := (command_end h).outside
    exact hmem
  · calc command v (s.withMem m) = resultWithMem m (command v s) := ignoresMem_command hv m s
      _ = .next (t.withMem m) := by rw [h, resultWithMem]

/-- Settles O31: the checks pass and the buffer is not readable, so `compute_from` stalls; a stuck port does not act. -/
theorem unreadableByteLeavesThePortStuck : Obligations.UnreadableByteLeavesThePortStuck := by
  refine ⟨fun s e k ht hs ha hb => ?_, fun s p q op rest he hq hs => ?_⟩
  · exact ⟨⟨_, computeFrom_eq_stall _ ht hs ha hb, withStuck_becameStuck⟩,
      ⟨_, computeFrom_eq_stall _ ht hs ha hb, withStuck_becameStuck⟩⟩
  · rw [step_cons he]
    exact onPort_of_stuck (hostOp op) hq hs

/-- Settles O37: each engine's run is a loop of wide iterations and a loop of bytes. -/
theorem foldReadsEachByteOnceInOrder : Obligations.FoldReadsEachByteOnceInOrder := fun t m seed a n =>
  ⟨readUpTo_fold (readsNext_blockStep t m a) (readsNext_byteStep t m a) seed n,
    readUpTo_fold (readsNext_hwnStep m a) (readsNext_hwByteStep m a) seed n,
    readUpTo_fold (readsNext_hwwStep m a) (readsNext_hwByteStep m a) seed n⟩

/-- Settles O53, by induction on both lists of entries. -/
theorem canonicalMemoriesAreDeterminedByTheirBytes : Obligations.CanonicalMemoriesAreDeterminedByTheirBytes :=
  fun _ _ hm hm' h => eq_of_read_eq hm hm' h

/-- Settles O54: the memory the command runs on is the one before it with the draws written. -/
theorem racedCommandSeesOnlyHeldBytes : Obligations.RacedCommandSeesOnlyHeldBytes := by
  intro s p q v held draws rest he hq hs hm hd
  obtain ⟨t, ht⟩ := command_next v { served s p rest with mem := Memory.writeAll s.mem draws }
  refine ⟨Memory.writeAll s.mem draws, t, ht, ?_, read_draws_held hm hd⟩
  calc step s = onPort p (racedCommand v held draws) { s with events := rest } := step_cons he
    _ = racedCommand v held draws (served s p rest) := onPort_of_free _ hq hs
    _ = .next { t with mem := Memory.writeAll s.mem held } :=
      racedCommand_of_drawsHeld ((drawsHeld_iff _ _ _).2 hd) ht

/-- Settles O52: the step is the write, and a read after it is `read_write`. -/
theorem memoryWriteIsReadBack : Obligations.MemoryWriteIsReadBack := by
  intro s a b rest he hm
  refine ⟨_, step_cons he, ?_, fun x hx => ?_, rfl, ⟨rfl, rfl, rfl, rfl⟩, rfl, rfl, rfl⟩
  · exact (read_write hm _ _ _).trans (if_pos rfl)
  · exact (read_write hm _ _ _).trans (if_neg hx)

end Sys2Proof.Machine
end

section
/-!
PROOFS. Command encoding, part 1: the fields of a value written to `CMD`, what the decoder answers, the rows of the
opcode table, and an id that names no engine (30_encoding.md rules R71 to R79).
-/

namespace Sys2Proof.Machine

variable {s : State} {v : Reg} {w : Word} {e : EngId} {o : BitVec 8} {i : Instr}

/-! ## Fields, by number -/

theorem opcField_toNat (v : Reg) : (opcField v).toNat = v.toNat % 256 := by
  simp [opcField]

theorem engField_toNat (v : Reg) : (engField v).toNat = v.toNat / 256 % 16 := by
  simp [engField, Nat.shiftRight_eq_div_pow]

theorem zeroField_eq_zero_iff (v : Reg) : zeroField v = 0#20 ↔ v.toNat / 4096 % 2 ^ 20 = 0 := by
  simp [zeroField, ← BitVec.toNat_inj, Nat.shiftRight_eq_div_pow]

theorem upperField_eq_zero_iff (v : Reg) : upperField v = 0#32 ↔ v.toNat < 2 ^ 32 := by
  have hv := v.isLt
  simp only [upperField, ← BitVec.toNat_inj, BitVec.extractLsb'_toNat, BitVec.toNat_ofNat,
    Nat.shiftRight_eq_div_pow]
  omega

/-- The word assembled for `mnemonic e` is `OPC + 256*e` (30_encoding.md rule R83). -/
theorem commandWord_toNat (e : EngId) (o : BitVec 8) : (commandWord e o).toNat = o.toNat + 256 * e.toNat := by
  have he := e.isLt
  have ho : o.toNat < 2 ^ 8 := o.isLt
  rw [commandWord, BitVec.toNat_or, BitVec.toNat_shiftLeft, BitVec.toNat_setWidth_of_le (by decide),
    BitVec.toNat_setWidth_of_le (by decide), Nat.shiftLeft_eq, Nat.mod_eq_of_lt (by omega), Nat.or_comm,
    Nat.mul_comm, ← Nat.two_pow_add_eq_or_of_lt ho, Nat.add_comm]

theorem cmdValue_toNat (w : Word) : (cmdValue w).toNat = w.toNat := BitVec.toNat_setWidth_of_le (by decide)

theorem cmdValue_inj {w w' : Word} : cmdValue w = cmdValue w' ↔ w = w' := by
  rw [← BitVec.toNat_inj, cmdValue_toNat, cmdValue_toNat, BitVec.toNat_inj]

/-! ## Fields of an assembled word -/

@[simp] theorem opcField_commandWord (e : EngId) (o : BitVec 8) : opcField (cmdValue (commandWord e o)) = o := by
  rw [← BitVec.toNat_inj, opcField_toNat, cmdValue_toNat, commandWord_toNat]
  omega

@[simp] theorem engField_commandWord (e : EngId) (o : BitVec 8) : engField (cmdValue (commandWord e o)) = e := by
  rw [← BitVec.toNat_inj, engField_toNat, cmdValue_toNat, commandWord_toNat]
  omega

@[simp] theorem zeroField_commandWord (e : EngId) (o : BitVec 8) : zeroField (cmdValue (commandWord e o)) = 0#20 := by
  rw [zeroField_eq_zero_iff, cmdValue_toNat, commandWord_toNat]
  omega

@[simp] theorem upperField_cmdValue (w : Word) : upperField (cmdValue w) = 0#32 := by
  rw [upperField_eq_zero_iff, cmdValue_toNat]
  exact w.isLt

/-- A value below 4096 is the word of its two fields. -/
theorem eq_cmdValue_commandWord (hv : v.toNat < 4096) (he : engField v = e) (ho : (opcField v).toNat = o.toNat) :
    v = cmdValue (commandWord e o) := by
  rw [← BitVec.toNat_inj, cmdValue_toNat, commandWord_toNat, ← ho, ← he, opcField_toNat, engField_toNat]
  omega

/-! ## The decoder -/

/-- The decoder reads a command back from its word. -/
theorem decode_encode (i : Instr) : decode (cmdValue (encode i)) = .instr i := by
  cases i <;> simp [encode, decode, cstepRow]

/-- A row whose `ENG` must be 0 is its command or a reserved encoding (30_encoding.md rule R76). -/
theorem cstepRow_cases (e : EngId) (i : Instr) :
    (e = 0#4 ∧ cstepRow e i = .instr i) ∨ (e ≠ 0#4 ∧ cstepRow e i = .reserved .cstepEng) := by
  unfold cstepRow
  split
  · exact .inl ⟨‹_›, rfl⟩
  · exact .inr ⟨‹_›, rfl⟩

/-- What the decoder may answer: the command whose word it was given, or that the value is a reserved encoding. -/
def DecodesAs (v : Reg) (d : Decoded) : Prop :=
  (∃ i, d = .instr i ∧ v = cmdValue (encode i)) ∨ (∃ r, d = .reserved r ∧ ReservedValue v)

/-- The four rows of CSTEP, whose words are their opcodes (30_encoding.md rules R76, R83). -/
theorem decodesAs_cstepRow (hv : v.toNat < 4096) (hi : encode i = commandWord 0#4 o)
    (ho : (opcField v).toNat = o.toNat) (hrow : 8 ≤ o.toNat ∧ o.toNat ≤ 11) :
    DecodesAs v (cstepRow (engField v) i) := by
  obtain ⟨he, h⟩ | ⟨he, h⟩ := cstepRow_cases (engField v) i
  · exact .inl ⟨i, h, hi ▸ eq_cmdValue_commandWord hv he ho⟩
  · rw [Ne, ← BitVec.toNat_inj, engField_toNat, BitVec.toNat_ofNat] at he
    rw [opcField_toNat] at ho
    exact .inr ⟨_, h, by unfold ReservedValue; omega⟩

/-- What the decoder answers, in the order of 30_encoding.md rule R79. -/
theorem decode_cases (v : Reg) : DecodesAs v (decode v) := by
  unfold decode
  split
  next hupper =>
    rw [Ne, upperField_eq_zero_iff] at hupper
    exact .inr ⟨_, rfl, .inl (by omega)⟩
  next hupper =>
  split
  next hzero =>
    rw [Ne, zeroField_eq_zero_iff] at hzero
    exact .inr ⟨_, rfl, .inl (by omega)⟩
  next hzero =>
  have hv : v.toNat < 4096 := by
    rw [not_not, upperField_eq_zero_iff] at hupper
    rw [not_not, zeroField_eq_zero_iff] at hzero
    omega
  split
  case h_1 ho => exact .inl ⟨.supp _, rfl, eq_cmdValue_commandWord hv rfl ho⟩
  case h_2 ho => exact .inl ⟨.poly _, rfl, eq_cmdValue_commandWord hv rfl ho⟩
  case h_3 ho => exact .inl ⟨.comp _, rfl, eq_cmdValue_commandWord hv rfl ho⟩
  case h_4 ho => exact .inl ⟨.compf _, rfl, eq_cmdValue_commandWord hv rfl ho⟩
  case h_5 ho => exact .inl ⟨.sel _, rfl, eq_cmdValue_commandWord hv rfl ho⟩
  case h_6 ho =>
    split
    next he => exact .inl ⟨.tbuild, rfl, eq_cmdValue_commandWord hv he ho⟩
    next he =>
      rw [← BitVec.toNat_inj, engField_toNat, BitVec.toNat_ofNat] at he
      rw [opcField_toNat] at ho
      exact .inr ⟨_, rfl, by unfold ReservedValue; omega⟩
  case h_7 ho => exact .inl ⟨.tread _, rfl, eq_cmdValue_commandWord hv rfl ho⟩
  case h_8 ho => exact decodesAs_cstepRow hv rfl ho (by decide)
  case h_9 ho => exact decodesAs_cstepRow hv rfl ho (by decide)
  case h_10 ho => exact decodesAs_cstepRow hv rfl ho (by decide)
  case h_11 ho => exact decodesAs_cstepRow hv rfl ho (by decide)
  case h_12 =>
    simp only [imp_false, opcField_toNat] at *
    exact .inr ⟨_, rfl, by unfold ReservedValue; omega⟩

theorem decode_eq_instr_iff (v : Reg) (i : Instr) : decode v = .instr i ↔ v = cmdValue (encode i) := by
  refine ⟨fun h => ?_, fun h => by rw [h, decode_encode]⟩
  obtain ⟨j, hj, hv⟩ | ⟨r, hr, -⟩ := decode_cases v
  · cases hj.symm.trans h
    exact hv
  · cases hr.symm.trans h

/-- No command's word is a reserved encoding (30_encoding.md rule R77). -/
theorem not_reservedValue_encode (i : Instr) : ¬ ReservedValue (cmdValue (encode i)) := by
  cases i <;> simp [ReservedValue, encode, cmdValue_toNat, commandWord_toNat] <;> omega

theorem decode_reserved_iff (v : Reg) : (∃ r, decode v = .reserved r) ↔ ReservedValue v := by
  obtain ⟨i, hi, rfl⟩ | ⟨r, hr, hv⟩ := decode_cases v
  · simp [hi, not_reservedValue_encode]
  · simp [hr, hv]

/-- A reserved encoding raises InvalidArgument and nothing else (30_encoding.md rule R77). -/
theorem command_of_reservedValue (s : State) (h : ReservedValue v) : command v s = raise .invalidArgument s := by
  obtain ⟨r, hr⟩ := (decode_reserved_iff v).2 h
  simp [command, hr]

/-! ## The rows of the opcode table -/

/-- The word assembled for a command lies in its own row, command by command. -/
theorem encode_and_rowMask (i : Instr) : encode i &&& rowMask i = rowMatch i := by
  cases i with
  | supp e => exact Laws.RowEncoding.supp e
  | poly e => exact Laws.RowEncoding.poly e
  | comp e => exact Laws.RowEncoding.comp e
  | compf e => exact Laws.RowEncoding.compf e
  | sel e => exact Laws.RowEncoding.sel e
  | tbuild => exact Laws.RowEncoding.tbuild
  | tread e => exact Laws.RowEncoding.tread e
  | cstepB => exact Laws.RowEncoding.cstepB
  | cstepH => exact Laws.RowEncoding.cstepH
  | cstepW => exact Laws.RowEncoding.cstepW
  | cstepD => exact Laws.RowEncoding.cstepD

/-- A word in a row that frees `ENG` is the word of the row's opcode and its own `ENG`. -/
theorem eq_commandWord_of_freed (h : w &&& 0xFFFFF0FF#32 = o.setWidth 32) :
    w = commandWord (w.extractLsb' 8 4) o := by
  have heng : w &&& 0x00000F00#32 = (w.extractLsb' 8 4).setWidth 32 <<< 8 := by
    ext i hi
    interval_cases i <;> simp
  have hmask : 0xFFFFF0FF#32 ||| 0x00000F00#32 = BitVec.allOnes 32 := by decide
  rw [commandWord, ← h, ← heng, ← BitVec.and_or_distrib_left, hmask, BitVec.and_allOnes]

/-- A word in a row that fixes `ENG` is the row's match value. -/
theorem eq_of_and_allOnes {m : Word} (h : w &&& 0xFFFFFFFF#32 = m) : w = m :=
  (BitVec.and_allOnes (x := w)).symm.trans h

/-- A word in a command's row is the word of a command of that row. -/
theorem exists_encode_of_row (h : w &&& rowMask i = rowMatch i) :
    ∃ j, w = encode j ∧ rowMatch j = rowMatch i ∧ rowMask j = rowMask i := by
  cases i with
  | supp e => exact ⟨.supp _, eq_commandWord_of_freed h, rfl, rfl⟩
  | poly e => exact ⟨.poly _, eq_commandWord_of_freed h, rfl, rfl⟩
  | comp e => exact ⟨.comp _, eq_commandWord_of_freed h, rfl, rfl⟩
  | compf e => exact ⟨.compf _, eq_commandWord_of_freed h, rfl, rfl⟩
  | sel e => exact ⟨.sel _, eq_commandWord_of_freed h, rfl, rfl⟩
  | tbuild => exact ⟨.tbuild, eq_of_and_allOnes h, rfl, rfl⟩
  | tread e => exact ⟨.tread _, eq_commandWord_of_freed h, rfl, rfl⟩
  | cstepB => exact ⟨.cstepB, eq_of_and_allOnes h, rfl, rfl⟩
  | cstepH => exact ⟨.cstepH, eq_of_and_allOnes h, rfl, rfl⟩
  | cstepW => exact ⟨.cstepW, eq_of_and_allOnes h, rfl, rfl⟩
  | cstepD => exact ⟨.cstepD, eq_of_and_allOnes h, rfl, rfl⟩

/-- A word in a command's row decodes to a command of that row. -/
theorem decode_of_row (h : w &&& rowMask i = rowMatch i) :
    ∃ j, decode (cmdValue w) = .instr j ∧ rowMatch j = rowMatch i ∧ rowMask j = rowMask i := by
  obtain ⟨j, rfl, hrow⟩ := exists_encode_of_row h
  exact ⟨j, decode_encode j, hrow⟩

/-! ## An id that names no engine -/

theorem resolve_of_idReserved (p : Platform) (h : IdReserved e) : resolve p e = none := by
  obtain ⟨hlo, hhi⟩ := h
  unfold resolve
  split
  case h_8 => rfl
  all_goals omega

theorem target_of_idReserved (s : State) (h : IdReserved e) : target s e = none := by
  rw [target, resolve_of_idReserved _ h]

theorem computeFrom_of_idReserved (seed : Word) (s : State) (h : IdReserved e) :
    computeFrom e seed s = raise .invalidArgument s := by
  rw [computeFrom, target_of_idReserved s h]

/-- Every command with an engine operand checks its id first (30_encoding.md rule R73). -/
theorem exec_of_idReserved (s : State) (h : IdReserved e) {c : EngId → Instr} (hc : c ∈ engineCommands) :
    exec (c e) s = raise .invalidArgument s := by
  simp only [engineCommands, List.mem_cons, List.not_mem_nil, or_false] at hc
  obtain rfl | rfl | rfl | rfl | rfl | rfl := hc
  · rw [exec, execSupp, target_of_idReserved s h]
  · rw [exec, execPoly, target_of_idReserved s h]
  · exact computeFrom_of_idReserved _ s h
  · exact computeFrom_of_idReserved _ s h
  · rw [exec, execSel, resolve_of_idReserved _ h]
  · rw [exec, execTread, target_of_idReserved s h]

/-! ## The host's write of what it has read -/

/-- A host write of the value read is a host write of that value (30_encoding.md rule R84). -/
theorem step_writeBack {p n : Nat} {q : Port} {rest : List Event} (he : s.events = .access p (.writeBack n) :: rest)
    (hq : s.ports[p]? = some q) (hs : q.stuck = false) : step s = hostWrite n q.rdata (served s p rest) := by
  rw [step_access he hq hs, hostOp, served_port hq]

theorem run_two {t u : State} (h : step s = .next t) (h' : step t = .next u) : core.run 2 s = .next u := by
  simp [Host.Core.run, Host.Check.core_step, h, h']

end Sys2Proof.Machine
end

section
/-!
PROOFS. Command encoding, part 2: the obligations of 30_encoding.md, each from the lemmas of part 1.
-/

namespace Sys2Proof.Machine

/-- Settles O1: the decoder reads every command back, and answers a command on no other value. -/
theorem decodeInvertsEncode : Obligations.DecodeInvertsEncode := decode_eq_instr_iff

/-- Settles O2: a word in a row is the word of a command of that row, and the decoder is a function. -/
theorem wordIsTheCommandOfItsRow : Obligations.WordIsTheCommandOfItsRow := by
  refine ⟨fun w i h => ?_, fun w i => decode_of_row, fun w i j hi hj => ?_, fun s e hs he c hc => ?_⟩
  · rw [cmdValue_inj.1 ((decode_eq_instr_iff _ i).1 h)]
    exact encode_and_rowMask i
  · obtain ⟨k, hk, hki, -⟩ := decode_of_row hi
    obtain ⟨k', hk', hkj, -⟩ := decode_of_row hj
    cases hk.symm.trans hk'
    exact hki.symm.trans hkj
  · exact ⟨_, exec_of_idReserved s he hc, withFault_invalidArgument hs⟩

/-- Settles O4. -/
theorem reservedValueRaisesInvalidArgument : Obligations.ReservedValueRaisesInvalidArgument :=
  ⟨decode_reserved_iff, fun s _ hs hv =>
    ⟨_, command_of_reservedValue s hv, withFault_invalidArgument hs, withFault_frame _ hs⟩⟩

/-- Settles O3: each is the word assembled for its command, read back by `decode_encode`. -/
theorem writtenOutWordsDecode : Obligations.WrittenOutWordsDecode :=
  ⟨decode_encode (.supp 3#4), decode_encode (.poly 2#4), decode_encode (.comp 14#4), decode_encode (.compf 15#4),
    decode_encode (.sel 15#4), decode_encode .tbuild, decode_encode (.tread 4#4), decode_encode .cstepB,
    decode_encode .cstepD⟩

/-- Settles O11: the read hands over `RES`, the write puts what was read in `PREV`. -/
theorem chainCopiesTheResultIntoTheSeed : Obligations.ChainCopiesTheResultIntoTheSeed := by
  intro s p q rest he hq hs
  have hread := (hostReadReturnsTheRegister s p 4 q _ he hq hs).1 q.res rfl
  have hport : (s.ports.set p { q with rdata := q.res })[p]? = some { q with rdata := q.res } :=
    List.getElem?_set_self (List.getElem?_eq_some_iff.1 hq).1
  refine run_two hread ?_
  rw [step_writeBack (q := { q with rdata := q.res }) rfl hport hs, hostWrite, if_neg (by decide), writeReg, served_port hport]
  simp [State.setPort, served, List.set_set]

end Sys2Proof.Machine
end

section
/-!
PROOFS. The folds, part 1: a run over a built table, and each hardware run, is one loop of byte steps, and so computes the
reference checksum (41_table_builder.md rules R112 to R114; 42_slice_engine.md rule R134; 43_hw_engine.md rules R142 to R155).
-/

namespace Sys2Proof.Machine

/-! ## The shift step is linear -/

theorem shiftStep_xor (p b c : Word) : shiftStep p (b ^^^ c) = shiftStep p b ^^^ shiftStep p c := by
  have hcarry : b >>> 1 ^^^ p ^^^ (c >>> 1 ^^^ p) = b >>> 1 ^^^ c >>> 1 := by
    rw [BitVec.xor_assoc, BitVec.xor_comm p, BitVec.xor_assoc, BitVec.xor_self, BitVec.xor_zero]
  unfold shiftStep
  rw [BitVec.getLsbD_xor, BitVec.ushiftRight_xor_distrib]
  cases b.getLsbD 0 <;> cases c.getLsbD 0
  · simp
  · simp [BitVec.xor_assoc]
  · simp [BitVec.xor_assoc, BitVec.xor_comm p]
  · simp [hcarry]

/-- Doing a linear function several times is linear. -/
theorem times_xor {f : Word → Word} (hf : ∀ b c, f (b ^^^ c) = f b ^^^ f c) :
    ∀ (n : Nat) (b c : Word), times f n (b ^^^ c) = times f n b ^^^ times f n c
  | 0, _, _ => rfl
  | n + 1, b, c => by rw [times_succ, hf, times_xor hf n]; rfl

theorem times_succ_last {α : Type} (f : α → α) (n : Nat) (x : α) : times f (n + 1) x = f (times f n x) :=
  times_add f n 1 x

theorem shift8_xor (p b c : Word) : shift8 p (b ^^^ c) = shift8 p b ^^^ shift8 p c :=
  times_xor (shiftStep_xor p) 8 b c

theorem times_shift8_xor (p : Word) (n : Nat) (b c : Word) :
    times (shift8 p) n (b ^^^ c) = times (shift8 p) n b ^^^ times (shift8 p) n c :=
  times_xor (shift8_xor p) n b c

theorem times_shift8_zero (p : Word) (n : Nat) : times (shift8 p) n 0#32 = 0#32 := by
  simpa using times_shift8_xor p n 0#32 0#32

/-! ## One byte: eight shift steps against one table step -/

/-- While the bits shifted out are 0, shift steps only shift. -/
theorem times_shiftStep_of_clear (p : Word) :
    ∀ (n : Nat) (c : Word), (∀ i < n, c.getLsbD i = false) → times (shiftStep p) n c = c >>> n
  | 0, c, _ => by simp
  | n + 1, c, h => by
    have hshift : shiftStep p c = c >>> 1 := by rw [shiftStep, h 0 n.succ_pos]; rfl
    rw [times_succ, hshift, times_shiftStep_of_clear p n, ← BitVec.shiftRight_add, Nat.add_comm 1]
    intro i hi
    rw [BitVec.getLsbD_ushiftRight]
    exact h (1 + i) (by omega)

theorem zext32_xor (b c : Byte) : zext32 (b ^^^ c) = zext32 b ^^^ zext32 c := BitVec.setWidth_xor

theorem byteOf_ushiftRight (v : Word) (k : Nat) : byteOf (v >>> 8) k = byteOf v (k + 1) := by
  ext i hi
  simp [byteOf, Nat.mul_succ, Nat.add_comm, Nat.add_left_comm]

/-- Eight shift steps reduce the lowest byte and shift the others down past it. -/
theorem shift8_xor_word (p c v : Word) : shift8 p (c ^^^ v) = refByte p c (byteOf v 0) ^^^ v >>> 8 := by
  have hclear : ∀ i < 8, (zext32 (byteOf v 0) ^^^ v).getLsbD i = false := by
    intro i hi
    simp [zext32, byteOf, hi, show i < 32 by omega]
  have hbyte : zext32 (byteOf v 0) >>> 8 = 0#32 := by
    ext i hi
    simp [zext32, byteOf]
  have hhigh : shift8 p (zext32 (byteOf v 0) ^^^ v) = v >>> 8 := by
    rw [shift8, times_shiftStep_of_clear p 8 _ hclear, BitVec.ushiftRight_xor_distrib, hbyte, BitVec.zero_xor]
  calc shift8 p (c ^^^ v) = shift8 p (c ^^^ zext32 (byteOf v 0) ^^^ (zext32 (byteOf v 0) ^^^ v)) := by
        rw [BitVec.xor_assoc, ← BitVec.xor_assoc (zext32 _), BitVec.xor_self, BitVec.zero_xor]
    _ = refByte p c (byteOf v 0) ^^^ v >>> 8 := by rw [shift8_xor, hhigh]; rfl

theorem column0_xor_eq_shift8 (p v : Word) : column0 p (byteOf v 0) ^^^ v >>> 8 = shift8 p v := by
  simpa [refByte, column0] using (shift8_xor_word p 0#32 v).symm

/-- The byte-wise table step is the reference's (42_slice_engine.md rule R127; 43_hw_engine.md rule R142). -/
theorem tableByte_build (p acc : Word) (b : Byte) : tableByte (build p) acc b = refByte p acc b := by
  calc tableByte (build p) acc b = column0 p (byteOf acc 0 ^^^ b) ^^^ acc >>> 8 := by
        rw [tableByte, entry_build, BitVec.xor_comm]; rfl
    _ = shift8 p (zext32 b ^^^ zext32 (byteOf acc 0)) ^^^ acc >>> 8 := by
        rw [column0, zext32_xor, BitVec.xor_comm (zext32 b)]
    _ = shift8 p (zext32 b ^^^ acc) := (shift8_xor_word p _ acc).symm
    _ = refByte p acc b := by rw [BitVec.xor_comm]; rfl

/-! ## One word: four byte steps against one fold of four columns -/

/-- Column `j` is `j + 1` bytes' worth of shift steps (41_table_builder.md rule R114). -/
theorem entry_build_eq_times (p : Word) (j : Fin Config.ncol) (i : Byte) :
    Table.entry (build p) j i = times (shift8 p) (j.val + 1) (zext32 i) := by
  rw [entry_build]
  induction j.val with
  | zero => rfl
  | succ j ih =>
    rw [buildEntry, nextColumn, BitVec.xor_comm, column0_xor_eq_shift8, ih]
    exact (times_succ_last _ _ _).symm

/-- Peeling the lowest byte off a word that is shifted by bytes. -/
theorem times_shift8_succ (p v : Word) (n : Nat) :
    times (shift8 p) (n + 1) v = times (shift8 p) (n + 1) (zext32 (byteOf v 0)) ^^^ times (shift8 p) n (v >>> 8) := by
  rw [times_succ, ← column0_xor_eq_shift8, times_shift8_xor]
  rfl

theorem ushiftRight_four_bytes (v : Word) : v >>> 8 >>> 8 >>> 8 >>> 8 = 0#32 := by
  simp only [← BitVec.shiftRight_add]
  exact BitVec.ushiftRight_eq_zero (by decide)

theorem fold32_build (p : Word) (c : Nat) (w : Word) (h : c + 3 < Config.ncol) :
    fold32 (build p) c w h = times (shift8 p) (c + 4) w := by
  rw [times_shift8_succ p w, times_shift8_succ p (w >>> 8), times_shift8_succ p (w >>> 8 >>> 8),
    times_shift8_succ p (w >>> 8 >>> 8 >>> 8), ushiftRight_four_bytes, times_shift8_zero]
  simp only [fold32, entry_build_eq_times, byteOf_ushiftRight, BitVec.xor_zero, BitVec.xor_assoc]

/-- Four byte steps over the bytes of a word. -/
theorem refByte_bytes (p acc v : Word) :
    refByte p (refByte p (refByte p (refByte p acc (byteOf v 0)) (byteOf v 1)) (byteOf v 2)) (byteOf v 3) =
      times (shift8 p) 4 (acc ^^^ v) := by
  simp only [times_succ, times_zero, shift8_xor_word, byteOf_ushiftRight, ushiftRight_four_bytes, BitVec.xor_zero]

/-! ## Loads -/

theorem byteOf_loadWord (m : Memory) (a : Nat) {k : Nat} (hk : k < 4) :
    byteOf (loadWord m a) k = Memory.read m (a + k) := by
  have h0 := (Memory.read m a).isLt
  have h1 := (Memory.read m (a + 1)).isLt
  have h2 := (Memory.read m (a + 2)).isLt
  have h3 := (Memory.read m (a + 3)).isLt
  apply BitVec.eq_of_toNat_eq
  simp only [byteOf, BitVec.extractLsb'_toNat, loadWord_toNat, Nat.shiftRight_eq_div_pow]
  interval_cases k <;> simp <;> omega

theorem leNat_lt (bs : List Byte) : leNat bs < 256 ^ bs.length := by
  induction bs with
  | nil => simp [leNat]
  | cons b bs ih =>
    have hb := b.isLt
    rw [leNat, List.length_cons, Nat.pow_succ]
    omega

theorem leNat_append (bs cs : List Byte) : leNat (bs ++ cs) = leNat bs + 256 ^ bs.length * leNat cs := by
  induction bs with
  | nil => simp [leNat]
  | cons b bs ih => rw [List.cons_append, leNat, leNat, ih, List.length_cons]; ring

theorem loadDouble_toNat (m : Memory) (a : Nat) :
    (loadDouble m a).toNat = (loadWord m a).toNat + 2 ^ 32 * (loadWord m (a + 4)).toNat := by
  have hlo := leNat_lt (memRead m a 4)
  have hhi := leNat_lt (memRead m (a + 4) 4)
  have happ : leNat (memRead m a 8) = _ :=
    (congrArg leNat (memRead_add m 4 4 a)).trans (leNat_append (memRead m a 4) (memRead m (a + 4) 4))
  simp only [memRead_length, loadDouble, loadWord, BitVec.toNat_ofNat] at *
  omega

theorem loadDouble_low (m : Memory) (a : Nat) : (loadDouble m a).extractLsb' 0 32 = loadWord m a := by
  have h := (loadWord m a).isLt
  apply BitVec.eq_of_toNat_eq
  rw [BitVec.extractLsb'_toNat, loadDouble_toNat, Nat.shiftRight_zero]
  omega

theorem loadDouble_high (m : Memory) (a : Nat) : (loadDouble m a).extractLsb' 32 32 = loadWord m (a + 4) := by
  have h := (loadWord m a).isLt
  have h' := (loadWord m (a + 4)).isLt
  apply BitVec.eq_of_toNat_eq
  rw [BitVec.extractLsb'_toNat, loadDouble_toNat, Nat.shiftRight_eq_div_pow]
  omega

/-- Folding the four bytes of a word of memory, then what follows. -/
theorem foldl_memRead_word (p : Word) (m : Memory) (a n : Nat) (acc : Word) :
    (memRead m a (n + 4)).foldl (refByte p) acc =
      (memRead m (a + 4) n).foldl (refByte p) (times (shift8 p) 4 (acc ^^^ loadWord m a)) := by
  rw [← refByte_bytes, byteOf_loadWord m a (by decide), byteOf_loadWord m a (by decide),
    byteOf_loadWord m a (by decide), byteOf_loadWord m a (by decide)]
  rfl

/-! ## Runs -/

theorem crc32cStep32_eq_times (acc v : Word) : crc32cStep32 acc v = times (shift8 polyCrc32c) 4 (acc ^^^ v) :=
  refByte_bytes polyCrc32c acc v

theorem crc32cStep64_loadDouble (acc : Word) (m : Memory) (a : Nat) :
    crc32cStep64 acc (loadDouble m a) = crc32cStep32 (crc32cStep32 acc (loadWord m a)) (loadWord m (a + 4)) := by
  rw [crc32cStep64, loadDouble_low, loadDouble_high]

/-- Byte steps on a built table fold the bytes as the reference does, and read them in order. -/
theorem times_byteStep (p : Word) (m : Memory) (a : Nat) : ∀ (n : Nat) (x : Transient),
    times (byteStep (build p) m a) n x =
      ⟨(memRead m (a + x.pos) n).foldl (refByte p) x.acc, x.pos + n, x.reads ++ List.range' (a + x.pos) n⟩
  | 0, x => by simp [memRead]
  | n + 1, x => by
    rw [times_succ, times_byteStep p m a n]
    simp [byteStep, memRead, tableByte_build, List.range'_succ, Nat.add_assoc, Nat.add_comm 1]

theorem hwByteStep_eq_byteStep (m : Memory) (a : Nat) : hwByteStep m a = byteStep (build polyCrc32c) m a := by
  funext x
  rw [byteStep, tableByte_build]
  rfl

/-- One block of the slice engine is 24 byte steps (42_slice_engine.md rule R134). -/
theorem blockStep_eq_times (p : Word) (m : Memory) (a : Nat) (x : Transient) :
    blockStep (build p) m a x = times (byteStep (build p) m a) Config.gblk x := by
  rw [times_byteStep, blockStep]
  congr 1
  simp only [Config.gblk, foldl_memRead_word, fold32_build, BitVec.xor_comm (loadWord m (a + x.pos)) x.acc,
    times_shift8_xor, ← times_add]
  rfl

theorem hwnStep_eq_times (m : Memory) (a : Nat) (x : Transient) :
    hwnStep m a x = times (byteStep (build polyCrc32c) m a) Config.hnb x := by
  rw [times_byteStep, hwnStep]
  congr 1
  simp only [Config.hnb, foldl_memRead_word, crc32cStep32_eq_times]
  rfl

theorem hwwStep_eq_times (m : Memory) (a : Nat) (x : Transient) :
    hwwStep m a x = times (byteStep (build polyCrc32c) m a) Config.hwb x := by
  rw [times_byteStep, hwwStep]
  congr 1
  simp only [Config.hwb, foldl_memRead_word, crc32cStep64_loadDouble, crc32cStep32_eq_times]
  rfl

theorem times_of_eq_times {α : Type} {f g : α → α} {w : Nat} (h : ∀ x, f x = times g w x) :
    ∀ (j : Nat) (x : α), times f j x = times g (w * j) x
  | 0, _ => rfl
  | j + 1, x => by rw [times_succ, times_of_eq_times h j, h, ← times_add, Nat.mul_succ, Nat.add_comm]

/-- A loop of iterations of `w` byte steps each and its tail of byte steps is one loop of byte steps. -/
theorem times_loop_tail {α : Type} {f g : α → α} {w : Nat} (h : ∀ x, f x = times g w x) (n : Nat) (x : α) :
    times g (n % w) (times f (n / w) x) = times g n x := by
  rw [times_of_eq_times h, ← times_add, Nat.div_add_mod]

theorem genRun_build (p : Word) (m : Memory) (seed : Word) (a n : Nat) :
    genRun (build p) m seed a n = times (byteStep (build p) m a) n (startFold seed) :=
  times_loop_tail (blockStep_eq_times p m a) n _

theorem hwnRun_eq_genRun (m : Memory) (seed : Word) (a n : Nat) :
    hwnRun m seed a n = genRun (build polyCrc32c) m seed a n := by
  rw [hwnRun, hwByteStep_eq_byteStep, times_loop_tail (hwnStep_eq_times m a), genRun_build]

theorem hwwRun_eq_genRun (m : Memory) (seed : Word) (a n : Nat) :
    hwwRun m seed a n = genRun (build polyCrc32c) m seed a n := by
  rw [hwwRun, hwByteStep_eq_byteStep, times_loop_tail (hwwStep_eq_times m a), genRun_build]

/-- The slice engine computes the reference checksum (40_contract.md rule R103). -/
theorem genFold_build (p : Word) (m : Memory) (seed : Word) (a n : Nat) :
    genFold (build p) m seed a n = crcRef p seed (memRead m a n) := by
  rw [genFold, genRun_build, times_byteStep]
  rfl

theorem hwnFold_eq_crcRef (m : Memory) (seed : Word) (a n : Nat) :
    hwnFold m seed a n = crcRef polyCrc32c seed (memRead m a n) := by
  rw [hwnFold, hwnRun_eq_genRun]
  exact genFold_build _ m seed a n

theorem hwwFold_eq_crcRef (m : Memory) (seed : Word) (a n : Nat) :
    hwwFold m seed a n = crcRef polyCrc32c seed (memRead m a n) := by
  rw [hwwFold, hwwRun_eq_genRun]
  exact genFold_build _ m seed a n

theorem startFold_acc_not (seed : Word) : ~~~(startFold seed).acc = seed := BitVec.not_not

end Sys2Proof.Machine
end

section
/-!
PROOFS. The folds, part 2: over any table, a fold depends on the bytes of its buffer only (40_contract.md rules R106, R108).
-/

namespace Sys2Proof.Machine

variable {s : State} {k : Engine} {m m' : Memory} {a a' n w : Nat} {f f' g g' : Transient → Transient}

/-! ## Two folds over the same bytes -/

/-- The `n` bytes from `a` up in one memory are those from `a'` up in the other. -/
def SameBytes (m : Memory) (a : Nat) (m' : Memory) (a' n : Nat) : Prop :=
  ∀ i < n, Memory.read m (a + i) = Memory.read m' (a' + i)

theorem SameBytes.drop (h : SameBytes m a m' a' n) {j l : Nat} (hj : j + l ≤ n) :
    SameBytes m (a + j) m' (a' + j) l := by
  intro i hi
  rw [Nat.add_assoc, Nat.add_assoc]
  exact h (j + i) (by omega)

theorem SameBytes.loadWord_eq (h : SameBytes m a m' a' n) (j : Nat) (hj : j + 4 ≤ n) :
    loadWord m (a + j) = loadWord m' (a' + j) := by
  rw [loadWord, memRead_congr (h.drop hj), ← loadWord]

/-- Two runs have folded `j` bytes to the same accumulator. -/
def InStep (j : Nat) (x x' : Transient) : Prop := x.acc = x'.acc ∧ x.pos = j ∧ x'.pos = j

/-- An iteration of `w` bytes of each run keeps them in step, while the bytes are among the first `n`. -/
def KeepsStep (n w : Nat) (f f' : Transient → Transient) : Prop :=
  ∀ j x x', j + w ≤ n → InStep j x x' → InStep (j + w) (f x) (f' x')

theorem KeepsStep.inStep_times (hf : KeepsStep n w f f') : ∀ (i : Nat) {j : Nat} {x x' : Transient},
    j + w * i ≤ n → InStep j x x' → InStep (j + w * i) (times f i x) (times f' i x')
  | 0, _, _, _, _, hx => hx
  | i + 1, j, x, x', hi, hx => by
    have hmul : j + w * (i + 1) = j + w + w * i := by rw [Nat.mul_succ]; omega
    rw [hmul] at hi ⊢
    exact hf.inStep_times i hi (hf j x x' (by omega) hx)

/-- Two folds whose iterations keep them in step end with the same accumulator. -/
theorem KeepsStep.acc_fold (hf : KeepsStep n w f f') (hg : KeepsStep n 1 g g') (seed : Word) :
    (times g (n % w) (times f (n / w) (startFold seed))).acc =
      (times g' (n % w) (times f' (n / w) (startFold seed))).acc := by
  have hn := Nat.div_add_mod n w
  have hwide := hf.inStep_times (n / w) (j := 0) (x := startFold seed) (x' := startFold seed) (by omega) ⟨rfl, rfl, rfl⟩
  exact (hg.inStep_times (n % w) (by omega) hwide).1

/-- `KeepsStep` of an iteration, from what it does to the accumulator when the `w` bytes it reads are the same. -/
theorem keepsStep_of_acc (hb : SameBytes m a m' a' n)
    (hacc : ∀ x x' : Transient, x.acc = x'.acc → SameBytes m (a + x.pos) m' (a' + x'.pos) w → (f x).acc = (f' x').acc)
    (hf : ReadsNext a w f) (hf' : ReadsNext a' w f') : KeepsStep n w f f' := by
  intro j x x' hj ⟨hx, hpos, hpos'⟩
  refine ⟨hacc x x' hx ?_, by rw [(hf x).2, hpos], by rw [(hf' x').2, hpos']⟩
  rw [hpos, hpos']
  exact hb.drop hj

theorem keepsStep_blockStep (t : Table) (hb : SameBytes m a m' a' n) :
    KeepsStep n Config.gblk (blockStep t m a) (blockStep t m' a') := by
  refine keepsStep_of_acc hb (fun x x' hx h => ?_) (readsNext_blockStep t m a) (readsNext_blockStep t m' a')
  have hfirst : loadWord m (a + x.pos) = loadWord m' (a' + x'.pos) := h.loadWord_eq 0 (by decide)
  simp only [blockStep, hx, hfirst, h.loadWord_eq 4 (by decide), h.loadWord_eq 8 (by decide),
    h.loadWord_eq 12 (by decide), h.loadWord_eq 16 (by decide), h.loadWord_eq 20 (by decide)]

theorem keepsStep_byteStep (t : Table) (hb : SameBytes m a m' a' n) :
    KeepsStep n 1 (byteStep t m a) (byteStep t m' a') := by
  refine keepsStep_of_acc hb (fun x x' hx h => ?_) (readsNext_byteStep t m a) (readsNext_byteStep t m' a')
  exact congrArg₂ (tableByte t) hx (h 0 Nat.one_pos)

theorem genFold_congr (t : Table) (seed : Word) (hb : SameBytes m a m' a' n) :
    genFold t m seed a n = genFold t m' seed a' n :=
  congrArg _ ((keepsStep_blockStep t hb).acc_fold (keepsStep_byteStep t hb) seed)

/-- The hardware engines read no table: their folds are functions of the bytes, as the reference is. -/
theorem engineFold_congr (s : State) (k : Engine) (seed : Word) (hb : SameBytes m a m' a' n) :
    engineFold { s with mem := m } k seed a n = engineFold { s with mem := m' } k seed a' n := by
  have hbytes : memRead m a n = memRead m' a' n := memRead_congr hb
  cases k with
  | gen32 => exact genFold_congr _ seed hb
  | gen32c => exact genFold_congr _ seed hb
  | gencu => exact genFold_congr _ seed hb
  | hwn => rw [engineFold, engineFold, hwnFold_eq_crcRef, hwnFold_eq_crcRef, hbytes]
  | hww => rw [engineFold, engineFold, hwwFold_eq_crcRef, hwwFold_eq_crcRef, hbytes]

end Sys2Proof.Machine
end

section
/-!
PROOFS. The checksum contract, part 1: which engine an id names, what an engine computes, how SUPP, POLY, COMP and COMPF
end (40_contract.md rules R90 to R104).
-/

namespace Sys2Proof.Machine

variable {s : State} {e : EngId} {k : Engine}

/-! ## What an engine computes -/

theorem needTable_slot0 (hb : TablesBuilt s) : (needTable .gen32 s).slot0 = ⟨true, build polyCrc32⟩ :=
  buildIfNeeded_eq hb.1

theorem needTable_slot1 (hb : TablesBuilt s) : (needTable .gen32c s).slot1 = ⟨true, build polyCrc32c⟩ :=
  buildIfNeeded_eq hb.2.1

theorem slot2_table (hb : TablesBuilt s) (he : engineExists s .gencu = true) : s.slot2.table = build s.cpoly :=
  hb.2.2 he

/-- Every existing engine computes the reference checksum of its polynomial (40_contract.md rule R103). -/
theorem engineFold_eq_crcRef (hb : TablesBuilt s) (he : engineExists s k = true) (seed : Word) (a n : Nat) :
    engineFold (needTable k s) k seed a n = crcRef (polyOf s k) seed (memRead s.mem a n) := by
  cases k with
  | gen32 => rw [engineFold, needTable_slot0 hb, genFold_build, needTable_mem]; rfl
  | gen32c => rw [engineFold, needTable_slot1 hb, genFold_build, needTable_mem]; rfl
  | gencu => rw [engineFold, needTable_slot2, slot2_table hb he, genFold_build, needTable_mem]; rfl
  | hwn => exact hwnFold_eq_crcRef s.mem seed a n
  | hww => exact hwwFold_eq_crcRef s.mem seed a n

theorem engineFold_empty (s : State) (k : Engine) (seed : Word) (a : Nat) : engineFold s k seed a 0 = seed := by
  cases k <;> exact startFold_acc_not seed

/-- The reference chains at any split. -/
theorem crcRef_append (p seed : Word) (bs cs : List Byte) :
    crcRef p seed (bs ++ cs) = crcRef p (crcRef p seed bs) cs := by
  simp [crcRef]

theorem tableMadeValid_needTable (hb : TablesBuilt s) (k : Engine) : TableMadeValid k s (needTable k s) := by
  cases k with
  | gen32 => exact ⟨rfl, rfl, needTable_slot0 hb, rfl⟩
  | gen32c => exact ⟨rfl, rfl, rfl, needTable_slot1 hb⟩
  | gencu => exact ⟨rfl, rfl, rfl, rfl⟩
  | hwn => exact ⟨rfl, rfl, rfl, rfl⟩
  | hww => exact ⟨rfl, rfl, rfl, rfl⟩

/-! ## Which engine an id names -/

theorem resolve_eq_none_iff (c : Platform) (e : EngId) : resolve c e = none ↔ IdReserved e := by
  refine ⟨fun h => ?_, resolve_of_idReserved c⟩
  have he := e.isLt
  unfold resolve at h
  unfold IdReserved
  split at h
  case h_8 =>
    simp only [imp_false] at *
    omega
  all_goals cases h

theorem selCrc32c_ne_gencu (c : Platform) : selCrc32c c ≠ .gencu := by
  unfold selCrc32c
  split
  · simp
  · split <;> simp

theorem resolve_eq_gencu_iff (c : Platform) (e : EngId) : resolve c e = some .gencu ↔ e = 2#4 := by
  refine ⟨fun h => ?_, fun h => by rw [h]; rfl⟩
  unfold resolve at h
  split at h
  case h_3 he => exact BitVec.eq_of_toNat_eq he
  case h_7 => exact absurd (Option.some.inj h) (selCrc32c_ne_gencu c)
  all_goals cases h

/-- Every engine exists but an unconstructed engine 2 (40_contract.md rule R90). -/
theorem engineExists_eq_false_iff : engineExists s k = false ↔ k = .gencu ∧ s.slot2.valid = false := by
  cases k <;> simp [engineExists]

/-- When an id names no engine that exists (40_contract.md rule R90). -/
theorem target_eq_none_iff : target s e = none ↔ NoSuchEngine s e := by
  unfold NoSuchEngine
  rw [← resolve_eq_none_iff s.plat, ← resolve_eq_gencu_iff s.plat, target]
  cases resolve s.plat e with
  | none => simp
  | some k => cases h : engineExists s k <;> simp [h, ← engineExists_eq_false_iff]

theorem target_best32 (s : State) : target s 14#4 = some .gen32 := rfl

theorem target_best32c (s : State) : target s 15#4 = some (selCrc32c s.plat) := by
  refine target_some.2 ⟨rfl, ?_⟩
  rw [← Bool.not_eq_false, engineExists_eq_false_iff]
  exact fun h => selCrc32c_ne_gencu _ h.1

/-- The selector answers an engine that can run and computes CRC-32C (44_selector.md rule R161). -/
theorem selCrc32c_spec (s : State) :
    supported s.plat (selCrc32c s.plat) = true ∧ polyOf s (selCrc32c s.plat) = polyCrc32c := by
  unfold selCrc32c
  split
  · exact ⟨‹_›, rfl⟩
  · split
    · exact ⟨‹_›, rfl⟩
    · exact ⟨rfl, rfl⟩

/-! ## How SUPP, POLY, COMP and COMPF end -/

theorem execSupp_of_target (ht : target s e = some k) :
    exec (.supp e) s = .next (s.withResult (boolWord (supported s.plat k))) := by
  rw [exec, execSupp, ht]; rfl

theorem execSupp_of_noSuchEngine (h : NoSuchEngine s e) : exec (.supp e) s = .next (s.withFault .invalidArgument) := by
  rw [exec, execSupp, target_eq_none_iff.2 h]; rfl

theorem execPoly_of_target (ht : target s e = some k) : exec (.poly e) s = .next (s.withResult (polyOf s k)) := by
  rw [exec, execPoly, ht]; rfl

theorem execPoly_of_noSuchEngine (h : NoSuchEngine s e) : exec (.poly e) s = .next (s.withFault .invalidArgument) := by
  rw [exec, execPoly, target_eq_none_iff.2 h]; rfl

/-- Of the ways `compute_from` ends, the result is the one left when every check passes. -/
theorem computeFrom_eq_complete (seed : Word) (ht : target s e = some k) (hs : supported s.plat k = true)
    (ha : ArgsGood s) (hr : BufferReadable s) :
    computeFrom e seed s = complete (engineFold (needTable k s) k seed (bufAddr s) (bufLen s)) (needTable k s) := by
  have hr' : bufferReadable s.plat s.port.ptr.toNat s.port.len.toNat = true := (bufferReadable_iff _ _ _).2 hr
  obtain ⟨hnone, -⟩ | ⟨j, hj, h⟩ := computeFrom_cases e seed s
  · cases ht.symm.trans hnone
  · cases ht.symm.trans hj
    simpa [hs, argsOk_of_argsGood ha, hr', bufAddr, bufLen] using h

theorem issuerExists_needTable (k : Engine) (h : IssuerExists s) : IssuerExists (needTable k s) := by
  rwa [IssuerExists, needTable_cur, needTable_ports]

/-- A result on the state after the lazy build, seen from the state before it. -/
theorem completed_needTable (k : Engine) (r : Word) (h : IssuerExists s) :
    Completed r s ((needTable k s).withResult r) := by
  have hdone := withResult_completed r (issuerExists_needTable k h)
  rwa [Completed, StickyKept, needTable_port] at hdone

theorem commandFrame_needTable (k : Engine) (r : Word) (h : IssuerExists s) :
    CommandFrame s ((needTable k s).withResult r) := by
  have hframe := (withResult_frame r (issuerExists_needTable k h)).2
  simpa only [CommandFrame, OperandsKept, OtherPortsKept, OutsideKept, needTable_port, needTable_ports, needTable_cur,
    needTable_plat, needTable_mem, needTable_events] using hframe

theorem computeFrom_completes (seed : Word) (hi : IssuerExists s) (hb : TablesBuilt s) (ht : target s e = some k)
    (hs : supported s.plat k = true) (ha : ArgsGood s) (hr : BufferReadable s) :
    ∃ t, computeFrom e seed s = .next t ∧ Completed (crcRef (polyOf s k) seed (bufferBytes s)) s t ∧
      TableMadeValid k s t ∧ CommandFrame s t := by
  refine ⟨_, computeFrom_eq_complete seed ht hs ha hr, ?_, ?_, commandFrame_needTable k _ hi⟩
  · rw [engineFold_eq_crcRef hb (target_some.1 ht).2]
    exact completed_needTable k _ hi
  · exact tableMadeValid_needTable hb k

/-- No check on the empty buffer fails, wherever it lies and whatever is readable. -/
theorem argsGood_of_empty (h : bufLen s = 0) : ArgsGood s ∧ BufferReadable s := by
  have hptr := s.port.ptr.isLt
  unfold ArgsGood BufferReadable
  rw [h]
  exact ⟨⟨by decide, fun _ => rfl, Nat.le_of_lt hptr⟩, by simp⟩

theorem seedOperand_eq_ofNat (s : State) : seedOperand s = BitVec.ofNat 32 s.port.prev.toNat := by
  apply BitVec.eq_of_toNat_eq
  simp [seedOperand]

end Sys2Proof.Machine
end

section
/-!
PROOFS. The checksum contract, part 2: a command ends alike on states its port cannot tell apart (40_contract.md rule R106;
60_exceptions.md rule R185).
-/

namespace Sys2Proof.Machine

variable {s s' : State} {k : Engine}

/-! ## Two states one port cannot tell apart -/

/-- The states agree on all that a command of the issuing port may depend on (40_contract.md rule R106). -/
structure LooksAlike (s s' : State) : Prop where
  issuer : IssuerExists s
  issuer' : IssuerExists s'
  built : TablesBuilt s
  built' : TablesBuilt s'
  port : s.port = s'.port
  plat : s.plat = s'.plat
  read : ∀ a, Memory.read s.mem a = Memory.read s'.mem a
  slot2 : s.slot2 = s'.slot2
  cpoly : s.cpoly = s'.cpoly

/-- Both outcomes are next states, with the same issuing port and the same custom engine. -/
def EndAlike (x x' : Result) : Prop :=
  ∃ t t', x = .next t ∧ x' = .next t' ∧ t.port = t'.port ∧ t.slot2 = t'.slot2 ∧ t.cpoly = t'.cpoly

theorem customBuilt_constructCustom (p : Word) (s : State) : CustomBuilt s (constructCustom p s) := ⟨rfl, rfl, rfl⟩

namespace LooksAlike

theorem endAlike_setPort (h : LooksAlike s s') {q q' : Port} (hq : q = q') :
    EndAlike (.next (s.setPort q)) (.next (s'.setPort q')) := by
  refine ⟨_, _, rfl, rfl, ?_, h.slot2, h.cpoly⟩
  rw [port_setPort _ _ h.issuer, port_setPort _ _ h.issuer', hq]

theorem endAlike_raise (h : LooksAlike s s') (f : EzFault) : EndAlike (raise f s) (raise f s') :=
  h.endAlike_setPort (by rw [h.port])

theorem endAlike_complete (h : LooksAlike s s') {r r' : Word} (hr : r = r') : EndAlike (complete r s) (complete r' s') :=
  h.endAlike_setPort (by rw [h.port, hr])

theorem endAlike_stall (h : LooksAlike s s') : EndAlike (stall s) (stall s') :=
  h.endAlike_setPort (by rw [h.port])

theorem looksAlike_needTable (h : LooksAlike s s') (k : Engine) : LooksAlike (needTable k s) (needTable k s') where
  issuer := issuerExists_needTable k h.issuer
  issuer' := issuerExists_needTable k h.issuer'
  built := (lazilyBuilt_needTable k).tablesBuilt h.built
  built' := (lazilyBuilt_needTable k).tablesBuilt h.built'
  port := by simpa using h.port
  plat := by simpa using h.plat
  read := by simpa using h.read
  slot2 := by simpa using h.slot2
  cpoly := by simpa using h.cpoly

theorem target_eq (h : LooksAlike s s') (e : EngId) : target s e = target s' e := by
  have hexists : engineExists s = engineExists s' := by
    funext k
    cases k <;> simp [engineExists, h.slot2]
  rw [target, target, h.plat, hexists]

theorem polyOf_eq (h : LooksAlike s s') (k : Engine) : polyOf s k = polyOf s' k := by
  cases k <;> simp [polyOf, h.cpoly]

theorem engineFold_eq (h : LooksAlike s s') (hk : engineExists s k = true) (hk' : engineExists s' k = true)
    (seed : Word) (a n : Nat) :
    engineFold (needTable k s) k seed a n = engineFold (needTable k s') k seed a n := by
  rw [engineFold_eq_crcRef h.built hk, engineFold_eq_crcRef h.built' hk', h.polyOf_eq, memRead_congr fun i _ => h.read _]

theorem tableOf_eq (h : LooksAlike s s') (k : Engine) :
    tableOf (needTable k s) k = tableOf (needTable k s') k := by
  cases k with
  | gen32 => rw [tableOf, tableOf, needTable_slot0 h.built, needTable_slot0 h.built']
  | gen32c => rw [tableOf, tableOf, needTable_slot1 h.built, needTable_slot1 h.built']
  | gencu => rw [tableOf, tableOf, needTable_slot2, needTable_slot2, h.slot2]
  | hwn => rfl
  | hww => rfl

theorem endAlike_computeFrom (h : LooksAlike s s') (e : EngId) {seed seed' : Word} (hseed : seed = seed') :
    EndAlike (computeFrom e seed s) (computeFrom e seed' s') := by
  unfold computeFrom foldBuffer
  rw [h.target_eq, h.port, h.plat, hseed]
  cases ht : target s' e with
  | none => exact h.endAlike_raise _
  | some k =>
    have hk : engineExists s k = true := (target_some.1 ((h.target_eq e).trans ht)).2
    have hk' : engineExists s' k = true := (target_some.1 ht).2
    dsimp only
    split
    · exact h.endAlike_raise _
    split
    · exact h.endAlike_raise _
    split
    · exact (h.looksAlike_needTable k).endAlike_complete (h.engineFold_eq hk hk' _ _ _)
    · exact h.endAlike_stall

theorem endAlike_readEntry (h : LooksAlike s s') (k : Engine) : EndAlike (readEntry k s) (readEntry k s') := by
  unfold readEntry columnOperand rowOperand
  rw [h.tableOf_eq, h.port]
  cases tableOf (needTable k s') k with
  | none => exact h.endAlike_raise _
  | some t =>
    dsimp only
    cases entryAt t _ _ with
    | none => exact h.endAlike_raise _
    | some r => exact (h.looksAlike_needTable k).endAlike_complete rfl

theorem endAlike_stepIf (h : LooksAlike s s') {c c' : Bool} {r r' : Word} (hc : c = c') (hr : r = r') :
    EndAlike (stepIf c r s) (stepIf c' r' s') := by
  subst hc
  cases c with
  | false => exact h.endAlike_raise _
  | true => exact h.endAlike_complete hr

theorem looksAlike_constructCustom (h : LooksAlike s s') (p : Word) :
    LooksAlike (constructCustom p s) (constructCustom p s') where
  issuer := h.issuer
  issuer' := h.issuer'
  built := (customBuilt_constructCustom p s).tablesBuilt h.built
  built' := (customBuilt_constructCustom p s').tablesBuilt h.built'
  port := h.port
  plat := h.plat
  read := h.read
  slot2 := rfl
  cpoly := rfl

theorem endAlike_execTbuild (h : LooksAlike s s') : EndAlike (execTbuild s) (execTbuild s') := by
  have hp : polyOperand s = polyOperand s' := by rw [polyOperand, h.port, polyOperand]
  unfold execTbuild
  rw [hp]
  have hc := h.looksAlike_constructCustom (polyOperand s')
  exact hc.endAlike_setPort (by rw [hc.port])

theorem seedOperand_eq (h : LooksAlike s s') : seedOperand s = seedOperand s' := by
  rw [seedOperand, h.port, seedOperand]

theorem stepOperand_eq (h : LooksAlike s s') (w : Nat) : stepOperand w s = stepOperand w s' := by
  rw [stepOperand, h.port, stepOperand]

theorem endAlike_exec (h : LooksAlike s s') (i : Instr) : EndAlike (exec i s) (exec i s') := by
  cases i with
  | supp e =>
    simp only [exec, execSupp, h.target_eq]
    cases target s' e with
    | none => exact h.endAlike_raise _
    | some k => exact h.endAlike_complete (by rw [h.plat])
  | poly e =>
    simp only [exec, execPoly, h.target_eq]
    cases target s' e with
    | none => exact h.endAlike_raise _
    | some k => exact h.endAlike_complete (h.polyOf_eq k)
  | comp e => exact h.endAlike_computeFrom e rfl
  | compf e => exact h.endAlike_computeFrom e h.seedOperand_eq
  | sel e =>
    simp only [exec, execSel, h.plat]
    cases resolve s'.plat e with
    | none => exact h.endAlike_raise _
    | some k => exact h.endAlike_complete rfl
  | tbuild => exact h.endAlike_execTbuild
  | tread e =>
    simp only [exec, execTread, h.target_eq]
    cases target s' e with
    | none => exact h.endAlike_raise _
    | some k => exact h.endAlike_readEntry k
  | cstepB => exact h.endAlike_stepIf (by rw [h.plat]) (by rw [h.seedOperand_eq, h.stepOperand_eq])
  | cstepH => exact h.endAlike_stepIf (by rw [h.plat]) (by rw [h.seedOperand_eq, h.stepOperand_eq])
  | cstepW => exact h.endAlike_stepIf (by rw [h.plat]) (by rw [h.seedOperand_eq, h.stepOperand_eq])
  | cstepD => exact h.endAlike_stepIf (by rw [h.plat]) (by rw [h.seedOperand_eq, h.stepOperand_eq])

theorem endAlike_command (h : LooksAlike s s') (v : Reg) : EndAlike (command v s) (command v s') := by
  unfold command
  cases decode v with
  | reserved r => exact h.endAlike_raise _
  | instr i => exact h.endAlike_exec i

end LooksAlike

end Sys2Proof.Machine
end

section
/-!
PROOFS. The checksum contract, part 3: the obligations of 40_contract.md, each from the lemmas of the folds and of parts 1
and 2.
-/

namespace Sys2Proof.Machine

/-- Settles O25: the answer is `supported`, engine by engine; the selector's engines are supported. -/
theorem suppAnswersWhetherTheEngineCanRun : Obligations.SuppAnswersWhetherTheEngineCanRun := by
  intro s e hi
  refine ⟨fun k ht => ?_, fun h => ?_, target_eq_none_iff, ?_⟩
  · obtain ⟨htables, hframe⟩ := withResult_frame (boolWord (supported s.plat k)) hi
    refine ⟨_, execSupp_of_target ht, htables, hframe, ?_⟩
    cases k <;> exact withResult_completed _ hi
  · obtain ⟨htables, hframe⟩ := withFault_frame .invalidArgument hi
    exact ⟨_, execSupp_of_noSuchEngine h, htables, hframe, withFault_invalidArgument hi⟩
  · rintro (rfl | rfl)
    · exact ⟨_, execSupp_of_target (target_best32 s), withResult_completed _ hi⟩
    · refine ⟨_, execSupp_of_target (target_best32c s), ?_⟩
      rw [(selCrc32c_spec s).1]
      exact withResult_completed _ hi

/-- Settles O26: the answer is `polyOf`, engine by engine; the selector's engine for CRC-32C computes it. -/
theorem polyAnswersTheEnginesPolynomial : Obligations.PolyAnswersTheEnginesPolynomial := by
  intro s e hi
  refine ⟨fun k ht => ?_, fun h => ?_, ?_, ?_⟩
  · obtain ⟨htables, hframe⟩ := withResult_frame (polyOf s k) hi
    refine ⟨_, execPoly_of_target ht, htables, hframe, ?_⟩
    cases k <;> exact withResult_completed _ hi
  · obtain ⟨htables, hframe⟩ := withFault_frame .invalidArgument hi
    exact ⟨_, execPoly_of_noSuchEngine h, htables, hframe, withFault_invalidArgument hi⟩
  · rintro rfl
    exact ⟨_, execPoly_of_target (target_best32 s), withResult_completed _ hi⟩
  · rintro rfl
    refine ⟨_, execPoly_of_target (target_best32c s), ?_⟩
    rw [(selCrc32c_spec s).2]
    exact withResult_completed _ hi

/-- Settles O29: `compute_from` from seed 0. -/
theorem compComputesTheReferenceChecksum : Obligations.CompComputesTheReferenceChecksum :=
  fun _ _ _ => computeFrom_completes 0#32

/-- Settles O30: `compute_from` from the low half of `PREV`. -/
theorem compfContinuesTheReferenceChecksum : Obligations.CompfContinuesTheReferenceChecksum := by
  intro s e k
  rw [← seedOperand_eq_ofNat]
  exact computeFrom_completes (seedOperand s)

/-- Settles O32: no check on the empty buffer fails, and a fold of no bytes is its seed. -/
theorem emptyBufferGivesZero : Obligations.EmptyBufferGivesZero := by
  intro s e k hi ht hs hlen
  have hempty : bufLen s = 0 := by rw [bufLen, hlen]; rfl
  obtain ⟨ha, hr⟩ := argsGood_of_empty hempty
  refine ⟨_, computeFrom_eq_complete 0#32 ht hs ha hr, ?_⟩
  rw [hempty, engineFold_empty]
  exact completed_needTable k _ hi

/-- Settles O34: every engine computes the reference, which chains. -/
theorem checksumsChainAtAnySplit : Obligations.ChecksumsChainAtAnySplit := by
  intro s k seed a n m hb he
  simp only [engineFold_eq_crcRef hb he, memRead_add, crcRef_append]

/-- Settles O35: every engine computes the reference of its polynomial. -/
theorem enginesOfOnePolynomialAgree : Obligations.EnginesOfOnePolynomialAgree := by
  intro s seed a n hb
  have gen32 := engineFold_eq_crcRef (k := .gen32) hb rfl seed a n
  have gen32c := engineFold_eq_crcRef (k := .gen32c) hb rfl seed a n
  have hwn := engineFold_eq_crcRef (k := .hwn) hb rfl seed a n
  have hww := engineFold_eq_crcRef (k := .hww) hb rfl seed a n
  have gencu (hv : s.slot2.valid = true) :
      engineFold s .gencu seed a n = crcRef s.cpoly seed (memRead s.mem a n) :=
    engineFold_eq_crcRef (k := .gencu) hb hv seed a n
  refine ⟨gen32c.trans hwn.symm, hwn.trans hww.symm, fun hv hc => ?_, fun hv hc => ?_⟩
  · rw [gencu hv, hc]
    exact gen32.symm
  · rw [gencu hv, hc]
    exact hwn.symm

/-- Settles O36: each engine's fold is a function of the bytes it loads. -/
theorem checksumDependsOnTheBytesOnly : Obligations.ChecksumDependsOnTheBytesOnly :=
  fun s k seed _ _ _ _ _ hb => engineFold_congr s k seed hb

/-- Settles O38: two states that look alike to the issuing port end every command alike. -/
theorem outcomeIgnoresPortsAndBuiltTables : Obligations.OutcomeIgnoresPortsAndBuiltTables := by
  intro v s s' t t' hi hi' hb hb' hport hplat hread hslot2 hcpoly ht ht'
  have h : LooksAlike s s' := ⟨hi, hi', hb, hb', hport, hplat, hread, hslot2, hcpoly⟩
  obtain ⟨u, u', hu, hu', halike⟩ := h.endAlike_command v
  cases ht.symm.trans hu
  cases ht'.symm.trans hu'
  exact halike

/-- Settles O33: the seed of COMPF is then 0, the seed of COMP. -/
theorem compIsCompfFromZero : Obligations.CompIsCompfFromZero := by
  intro s e hprev
  have hseed : seedOperand s = 0#32 := by
    rw [seedOperand_eq_ofNat, ← BitVec.toNat_inj, BitVec.toNat_ofNat, hprev]
    rfl
  rw [exec, exec, execComp, execCompf, hseed]

end Sys2Proof.Machine
end

section
/-!
PROOFS. The table builder, part 1: what a zero byte does to an accumulator, how TBUILD and TREAD end
(41_table_builder.md rules R112 to R119; 30_encoding.md rule R80).
-/

namespace Sys2Proof.Machine

variable {s : State} {e : EngId} {k : Engine}

/-! ## Columns and zero bytes -/

/-- `prev & 0xFF` and `c[7:0]` are the byte 0 of a word. -/
theorem byteOf_zero_eq_setWidth (v : Word) : byteOf v 0 = v.setWidth 8 :=
  (BitVec.setWidth_eq_extractLsb' (by decide)).symm

theorem entry_build_zero (p : Word) (i : Byte) : Table.entry (build p) 0 i = column0 p i := entry_build p 0 i

/-- `Z` of 41_table_builder.md rule R114 is eight shift steps. -/
theorem zeroStep_eq_shift8 (p c : Word) : c >>> 8 ^^^ Table.entry (build p) 0 (c.setWidth 8) = shift8 p c := by
  rw [entry_build_zero, ← byteOf_zero_eq_setWidth, BitVec.xor_comm, column0_xor_eq_shift8]

/-- Folding a zero byte is eight shift steps. -/
theorem tableByte_build_zero (p c : Word) : tableByte (build p) c 0#8 = shift8 p c := by
  have hzext : zext32 0#8 = 0#32 := rfl
  rw [tableByte_build, refByte, hzext, BitVec.xor_zero]

/-- Folding the byte `i` from 0 looks up `T[0][i]`. -/
theorem tableByte_build_from_zero (p : Word) (i : Byte) :
    tableByte (build p) 0#32 i = Table.entry (build p) 0 i := by
  rw [tableByte_build, entry_build_zero, refByte, BitVec.zero_xor, column0]

/-- `T[j][i]` is `T[0][i]` after `j` more bytes' worth of shift steps. -/
theorem entry_build_eq_times_column0 (p : Word) (j : Fin Config.ncol) (i : Byte) :
    Table.entry (build p) j i = times (shift8 p) j.val (Table.entry (build p) 0 i) := by
  rw [entry_build_eq_times, times_succ, entry_build_zero, column0]

/-- Seven shift steps bring the one set bit of `0x80` down to bit 0; the eighth shifts it out and leaves the polynomial. -/
theorem column0_topBit (p : Word) : column0 p 0x80#8 = p := by
  have hseven : times (shiftStep p) 7 (zext32 0x80#8) = 1#32 := by
    rw [times_shiftStep_of_clear p 7 _ (by decide)]
    rfl
  have hlast : shiftStep p 1#32 = p := BitVec.zero_xor
  rw [column0, shift8, times_succ_last, hseven, hlast]

/-! ## How TBUILD ends -/

theorem polyOperand_eq_ofNat (s : State) : polyOperand s = BitVec.ofNat 32 s.port.data.toNat := by
  apply BitVec.eq_of_toNat_eq
  simp [polyOperand]

/-- A command that ends well without a result keeps `RES` (10_state.md rules R26, R28). -/
theorem withOk_completed (h : IssuerExists s) :
    s.withOk.port.res = s.port.res ∧ errField s.withOk.port.status = 0#2 ∧ StickyKept s s.withOk := by
  rw [withOk_eq, StickyKept, port_setPort _ _ h]
  exact ⟨rfl, errField_statusOk _, statusOk_keeps _⟩

theorem withOk_frame (h : IssuerExists s) : CommandFrame s s.withOk := by
  refine ⟨?_, otherPortsKept_setPort s _, rfl, fun _ => rfl, rfl, rfl⟩
  rw [withOk_eq, OperandsKept, port_setPort _ _ h]
  exact ⟨rfl, rfl, rfl, rfl, rfl, rfl⟩

/-! ## The operands of TREAD -/

theorem columnOperand_toNat (s : State) : (columnOperand s).toNat = treadColumn s := by
  simp [columnOperand, treadColumn, Nat.shiftRight_eq_div_pow]

theorem rowOperand_eq_treadRow (s : State) : rowOperand s = treadRow s := by
  apply BitVec.eq_of_toNat_eq
  simp [rowOperand, treadRow]

theorem entryAt_of_lt (t : Table) (h : treadColumn s < Config.ncol) :
    entryAt t (columnOperand s) (rowOperand s) = some (Table.entry t ⟨treadColumn s, h⟩ (treadRow s)) := by
  simp [entryAt, columnOperand_toNat, rowOperand_eq_treadRow, h]

theorem column_lt_of_entryAt {t : Table} {r : Word} (h : entryAt t (columnOperand s) (rowOperand s) = some r) :
    treadColumn s < Config.ncol := by
  by_contra hge
  simp [entryAt, columnOperand_toNat, hge] at h

/-! ## Which engine has a table -/

theorem selCrc32c_hardware_iff (c : Platform) : selCrc32c c = .hwn ∨ selCrc32c c = .hww ↔ c.capN = true := by
  cases hn : c.capN <;> cases hw : c.capW <;> simp [selCrc32c, supported, hn, hw]

/-- An id stands for a hardware engine when it resolves to one (44_selector.md rules R161, R162). -/
theorem standsForHardware_iff {c : Platform} (hr : resolve c e = some k) :
    StandsForHardware c e ↔ k = .hwn ∨ k = .hww := by
  unfold resolve at hr
  split at hr
  case h_8 => cases hr
  case h_7 he =>
    cases hr
    cases BitVec.eq_of_toNat_eq (y := 15#4) he
    simp [StandsForHardware, selCrc32c_hardware_iff]
  all_goals
    rename_i he
    cases hr
    simp [StandsForHardware, selCrc32, BitVec.toNat_eq, he]

/-- The hardware engines have no table (41_table_builder.md rule R119). -/
theorem tableOf_eq_none_iff : tableOf s k = none ↔ k = .hwn ∨ k = .hww := by
  cases k <;> simp [tableOf]

/-- Every existing generic engine has, after the lazy build, the table of its polynomial (40_contract.md rule R100). -/
theorem tableOf_needTable (hb : TablesBuilt s) (he : engineExists s k = true) (hk : ¬ (k = .hwn ∨ k = .hww)) :
    tableOf (needTable k s) k = some (build (polyOf s k)) := by
  cases k with
  | gen32 => rw [tableOf, needTable_slot0 hb]; rfl
  | gen32c => rw [tableOf, needTable_slot1 hb]; rfl
  | gencu => rw [tableOf, needTable_slot2, slot2_table hb he]; rfl
  | hwn => simp at hk
  | hww => simp at hk

/-! ## How TREAD ends -/

theorem execTread_of_target (hb : TablesBuilt s) (ht : target s e = some k) (hg : ¬ StandsForHardware s.plat e)
    (hc : treadColumn s < Config.ncol) :
    exec (.tread e) s = .next ((needTable k s).withResult
      (Table.entry (build (polyOf s k)) ⟨treadColumn s, hc⟩ (treadRow s))) := by
  obtain ⟨hr, he⟩ := target_some.1 ht
  have htable := tableOf_needTable hb he (mt (standsForHardware_iff hr).2 hg)
  simp only [exec, execTread, ht, readEntry, htable, entryAt_of_lt _ hc, complete_next]

/-- TREAD ends with an entry only if its engine exists, has a table and has the column. -/
theorem execTread_of_fault (h : NoSuchEngine s e ∨ StandsForHardware s.plat e ∨ 24 ≤ treadColumn s) :
    exec (.tread e) s = .next (s.withFault .invalidArgument) := by
  rw [exec, execTread]
  cases ht : target s e with
  | none => rfl
  | some k =>
    obtain hfault | ⟨t, r, htable, hentry, -⟩ := readEntry_cases k s
    · exact hfault
    · obtain hnone | hhw | hcol := h
      · cases ht.symm.trans (target_eq_none_iff.2 hnone)
      · have hk := (standsForHardware_iff (target_some.1 ht).1).1 hhw
        cases htable.symm.trans (tableOf_eq_none_iff.2 hk)
      · exact absurd (column_lt_of_entryAt hentry) (Nat.not_lt.2 hcol)

end Sys2Proof.Machine
end

section
/-!
PROOFS. The table builder, part 2: the obligations of 41_table_builder.md, each from the lemmas of part 1.
-/

namespace Sys2Proof.Machine

/-- Settles O39: both rules are the builder's own, the first entry of a column and the step to the next. -/
theorem buildFollowsItsTwoColumnRules : Obligations.BuildFollowsItsTwoColumnRules := by
  intro p i
  refine ⟨entry_build_zero p i, fun j j' hj => ?_⟩
  rw [entry_build_zero, ← byteOf_zero_eq_setWidth, entry_build, entry_build, hj]
  rfl

/-- Settles O40: one step of either kind is eight shift steps, and `T[0][i]` is the fold of `i` from 0. -/
theorem entryIsTheEffectOfItsByteLater : Obligations.EntryIsTheEffectOfItsByteLater := by
  intro p j i
  simp only [zeroStep_eq_shift8, tableByte_build_zero, tableByte_build_from_zero]
  exact ⟨entry_build_eq_times_column0 p j i, entry_build_eq_times_column0 p j i⟩

/-- Settles O41: entries and the zero byte step are shift steps, which are linear. -/
theorem tablesAreLinear : Obligations.TablesAreLinear := by
  intro p
  refine ⟨fun j => ?_, fun j a b => ?_, fun c d => ?_, ?_⟩
  · rw [entry_build_eq_times]
    exact times_shift8_zero p _
  · simp only [entry_build_eq_times, zext32_xor, times_shift8_xor]
  · simp only [tableByte_build_zero, shift8_xor]
  · rw [entry_build_zero, column0_topBit]

/-- Settles O43: the entry when the engine has a table and the column, after the lazy build; else the fault. -/
theorem treadReturnsTheEntry : Obligations.TreadReturnsTheEntry := by
  intro s e hi hb
  refine ⟨fun k ht hg hc => ?_, fun h => ?_⟩
  · exact ⟨_, execTread_of_target hb ht hg hc, completed_needTable k _ hi, tableMadeValid_needTable hb k,
      commandFrame_needTable k _ hi⟩
  · exact ⟨_, execTread_of_fault h, withFault_invalidArgument hi, withFault_frame _ hi⟩

/-- Settles O42: the construction writes slot 2 and `CPOLY` only, and ending well then writes `STATUS` only. -/
theorem tbuildConstructsTheCustomEngine : Obligations.TbuildConstructsTheCustomEngine := by
  intro s hi
  have hi' : IssuerExists (constructCustom (polyOperand s) s) := hi
  obtain ⟨hres, herr, hsticky⟩ := withOk_completed hi'
  rw [← polyOperand_eq_ofNat]
  exact ⟨_, rfl, rfl, rfl, rfl, rfl, rfl, hres, herr, hsticky, withOk_frame hi'⟩

end Sys2Proof.Machine
end

section
/-!
PROOFS. The slice engine: the obligation of 42_slice_engine.md, from the lemmas on the folds.
-/

namespace Sys2Proof.Machine

/-- Folding byte by byte through column 0 of a built table is the reference checksum (42_slice_engine.md rule R134). -/
theorem byteFold_build_eq_crcRef (p seed : Word) (bytes : List Byte) :
    ~~~(bytes.foldl (tableByte (build p)) (~~~seed)) = crcRef p seed bytes := by
  have hstep : tableByte (build p) = refByte p := funext₂ (tableByte_build p)
  rw [hstep, crcRef]

/-- Settles O44: a block and the 24 byte steps fold the same bytes, so every loop of them computes the reference. -/
theorem blockStepEqualsTwentyFourByteSteps : Obligations.BlockStepEqualsTwentyFourByteSteps := by
  intro p m a
  refine ⟨blockStep_eq_times p m a, fun seed n => ⟨?_, genFold_build p m seed a n⟩⟩
  rw [genFold_build, byteFold_build_eq_crcRef]

end Sys2Proof.Machine
end

section
/-!
PROOFS. The hardware engine, part 1: the native steps as folds of bytes, and how the CSTEP commands end
(43_hw_engine.md rules R140 to R149; 30_encoding.md rule R81).
-/

namespace Sys2Proof.Machine

variable {s : State}

/-! ## The native steps fold bytes -/

/-- The 8-bit step is one byte of the reference fold for CRC-32C (43_hw_engine.md rule R142). -/
theorem crc32cStep8_eq_refByte : crc32cStep8 = refByte polyCrc32c := rfl

/-- The bytes of the low `l` bits of `v` are bytes of `v`. -/
theorem byteOf_lowField {w l k : Nat} (v : BitVec w) (h : 8 * k + 8 ≤ l) :
    byteOf (v.extractLsb' 0 l) k = byteOf v k :=
  BitVec.extractLsb'_extractLsb'_of_le h

theorem byteOf_highWord {k : Nat} (v : Reg) (hk : k < 4) : byteOf (v.extractLsb' 32 32) k = byteOf v (4 + k) := by
  ext i hi
  have hlt : 8 * k + i < 32 := by omega
  simp [byteOf, hlt, Nat.mul_add, Nat.add_assoc]

theorem crc32cStep8_eq_foldl (c : Word) (v : Byte) :
    crc32cStep8 c v = ((List.range 1).map (byteOf v)).foldl crc32cStep8 c := by
  have hbyte : byteOf v 0 = v := BitVec.extractLsb'_eq_self
  simp [hbyte]

theorem crc32cStep16_eq_foldl (c : Word) (v : BitVec 16) :
    crc32cStep16 c v = ((List.range 2).map (byteOf v)).foldl crc32cStep8 c := rfl

theorem crc32cStep32_eq_foldl (c v : Word) :
    crc32cStep32 c v = ((List.range 4).map (byteOf v)).foldl crc32cStep8 c := rfl

theorem crc32cStep64_eq_foldl (c : Word) (v : Reg) :
    crc32cStep64 c v = ((List.range 8).map (byteOf v)).foldl crc32cStep8 c := by
  have low (k : Nat) (hk : k < 4) : byteOf (v.extractLsb' 0 32) k = byteOf v k := byteOf_lowField v (by omega)
  simp [crc32cStep64, crc32cStep32, low, byteOf_highWord v, List.range_succ]

/-- Reducing `n` bytes is `8 * n` shift steps. -/
theorem times_shift8_eq_times_shiftStep (p : Word) (n : Nat) (c : Word) :
    times (shift8 p) n c = times (shiftStep p) (8 * n) c :=
  times_of_eq_times (fun _ => rfl) n c

/-! ## How a CSTEP ends -/

/-- The bytes of the operand are the low bytes of `DATA` (30_encoding.md rule R81). -/
theorem map_byteOf_stepOperand (s : State) {w n : Nat} (h : 8 * n ≤ w) :
    (List.range n).map (byteOf (stepOperand w s)) = dataBytes s n := by
  refine List.map_congr_left fun k hk => ?_
  have hlt := List.mem_range.1 hk
  exact byteOf_lowField s.port.data (by omega)

/-- What a CSTEP of `n` bytes computes: the low bytes of `DATA` folded into `PREV[31:0]`. -/
def dataFold (s : State) (n : Nat) : Word := (dataBytes s n).foldl crc32cStep8 (seedOperand s)

theorem dataFold_eq_refByte (s : State) (n : Nat) :
    dataFold s n = (dataBytes s n).foldl (refByte 0x82F63B78#32) (BitVec.ofNat 32 s.port.prev.toNat) := by
  rw [dataFold, crc32cStep8_eq_refByte, seedOperand_eq_ofNat, polyCrc32c]

theorem exec_cstepB (s : State) : exec .cstepB s = stepIf s.plat.capN (dataFold s 1) s := by
  rw [dataFold, ← map_byteOf_stepOperand s (w := 8) (by decide), ← crc32cStep8_eq_foldl]; rfl

theorem exec_cstepH (s : State) : exec .cstepH s = stepIf s.plat.capN (dataFold s 2) s := by
  rw [dataFold, ← map_byteOf_stepOperand s (w := 16) (by decide), ← crc32cStep16_eq_foldl]; rfl

theorem exec_cstepW (s : State) : exec .cstepW s = stepIf s.plat.capN (dataFold s 4) s := by
  rw [dataFold, ← map_byteOf_stepOperand s (w := 32) (by decide), ← crc32cStep32_eq_foldl]; rfl

theorem exec_cstepD (s : State) : exec .cstepD s = stepIf (s.plat.capN && s.plat.capW) (dataFold s 8) s := by
  rw [dataFold, ← map_byteOf_stepOperand s (w := 64) (by decide), ← crc32cStep64_eq_foldl]; rfl

theorem stepIf_completes {present : Bool} (r : Word) (hi : IssuerExists s) (h : present = true) :
    ∃ t, stepIf present r s = .next t ∧ Completed r s t ∧ TableStoreKept s t ∧ CommandFrame s t := by
  subst h
  exact ⟨_, rfl, withResult_completed r hi, withResult_frame r hi⟩

theorem stepIf_raises {present : Bool} (r : Word) (hi : IssuerExists s) (h : present = false) :
    ∃ t, stepIf present r s = .next t ∧ RaisedNotSupported s t ∧ TableStoreKept s t ∧ CommandFrame s t := by
  subst h
  exact ⟨_, rfl, withFault_notSupported hi, withFault_frame _ hi⟩

end Sys2Proof.Machine
end

section
/-!
PROOFS. The hardware engine, part 2: the obligations of 43_hw_engine.md, each from the lemmas of the folds and of
part 1.
-/

namespace Sys2Proof.Machine

/-- Settles O45: the byte fold of the 8-bit step is the reference, which both hardware folds and the slice engine's
compute. -/
theorem hardwareFoldsEqualTheByteFold : Obligations.HardwareFoldsEqualTheByteFold := by
  intro m seed a n
  have hbytes : ~~~((memRead m a n).foldl crc32cStep8 (~~~seed)) = crcRef polyCrc32c seed (memRead m a n) := by
    rw [crc32cStep8_eq_refByte, crcRef]
  rw [hbytes, hwnFold_eq_crcRef, hwwFold_eq_crcRef, genFold_build]
  exact ⟨rfl, rfl, rfl, rfl⟩

/-- Settles O46: the 8-bit step is the reference's byte step, which the table byte step equals. -/
theorem byteStepIsTheTableByteStep : Obligations.ByteStepIsTheTableByteStep := by
  intro c v
  refine ⟨rfl, ?_⟩
  rw [crc32cStep8_eq_refByte, ← tableByte_build, tableByte, byteOf_zero_eq_setWidth, polyCrc32c]

/-- Settles O47: each chain is the fold over its operand's bytes; the 32-bit chain reduces four bytes of `s ^ v`, and
the halves of the 64-bit operand are its two 32-bit words. -/
theorem wideStepsAreByteChains : Obligations.WideStepsAreByteChains := by
  refine ⟨crc32cStep16_eq_foldl, fun c v => ⟨crc32cStep32_eq_foldl c v, ?_⟩,
    fun c v => ⟨crc32cStep64_eq_foldl c v, ?_⟩⟩
  · rw [crc32cStep32_eq_times, times_shift8_eq_times_shiftStep]
    rfl
  · have hlow : v.extractLsb' 0 32 = v.setWidth 32 := (BitVec.setWidth_eq_extractLsb' (by decide)).symm
    rw [crc32cStep64, hlow, BitVec.setWidth_ushiftRight_eq_extractLsb]

/-- Settles O48: the three commands are steps under `CAP_N` alone. -/
theorem narrowCstepsFoldTheLowBytesOfData : Obligations.NarrowCstepsFoldTheLowBytesOfData := by
  intro s hi c hc
  have hexec : exec c.1 s = stepIf s.plat.capN (dataFold s c.2) s := by
    simp only [List.mem_cons, List.not_mem_nil, or_false] at hc
    obtain rfl | rfl | rfl := hc
    · exact exec_cstepB s
    · exact exec_cstepH s
    · exact exec_cstepW s
  rw [hexec, ← dataFold_eq_refByte]
  exact ⟨stepIf_completes _ hi, stepIf_raises _ hi⟩

/-- Settles O49: the command is a step under both Capability Flags. -/
theorem wideCstepFoldsAllOfData : Obligations.WideCstepFoldsAllOfData := by
  intro s hi
  rw [exec_cstepD, ← dataFold_eq_refByte]
  refine ⟨fun hn hw => stepIf_completes _ hi ?_, fun h => stepIf_raises _ hi ?_⟩
  · rw [hn, hw]; rfl
  · exact Bool.and_eq_false_iff.2 h

end Sys2Proof.Machine
end

section
/-!
PROOFS. The capability selector, part 1: which engine an id resolves to, how SEL ends, and that a command sees its engine
operand only through `resolve` (44_selector.md rules R161 to R163).
-/

namespace Sys2Proof.Machine

variable {s : State} {e e' : EngId} {k : Engine}

/-! ## Which engine an id resolves to -/

theorem resolve_real (c : Platform) (he : e.toNat ≤ 4) : ∃ k, resolve c e = some k ∧ engineNumber k = e.setWidth 32 := by
  obtain rfl | rfl | rfl | rfl | rfl : e = 0#4 ∨ e = 1#4 ∨ e = 2#4 ∨ e = 3#4 ∨ e = 4#4 := by bv_omega
  · exact ⟨.gen32, rfl, rfl⟩
  · exact ⟨.gen32c, rfl, rfl⟩
  · exact ⟨.gencu, rfl, rfl⟩
  · exact ⟨.hwn, rfl, rfl⟩
  · exact ⟨.hww, rfl, rfl⟩

theorem resolve_best32 (c : Platform) : resolve c 14#4 = resolve c 0#4 := rfl

/-- `BEST32C` resolves as the real id of the first supported engine: wide, narrow, generic (44_selector.md rule R161). -/
theorem resolve_best32c (c : Platform) :
    resolve c 15#4 = resolve c (if c.capN && c.capW then 4#4 else if c.capN then 3#4 else 1#4) := by
  have hsel : resolve c 15#4 = some (selCrc32c c) := rfl
  rw [hsel, selCrc32c, apply_ite some, apply_ite some, apply_ite (resolve c), apply_ite (resolve c)]
  rfl

theorem engineNumber_selCrc32c (c : Platform) :
    engineNumber (selCrc32c c) = if c.capN && c.capW then 4#32 else if c.capN then 3#32 else 1#32 := by
  rw [selCrc32c, apply_ite engineNumber, apply_ite engineNumber]
  rfl

/-! ## How SEL ends -/

theorem execSel_of_resolve (hr : resolve s.plat e = some k) :
    exec (.sel e) s = .next (s.withResult (engineNumber k)) := by
  rw [exec, execSel, hr]; rfl

theorem execSel_completes (hi : IssuerExists s) (hr : resolve s.plat e = some k) :
    ∃ t, exec (.sel e) s = .next t ∧ TableStoreKept s t ∧ CommandFrame s t ∧ Completed (engineNumber k) s t := by
  obtain ⟨htables, hframe⟩ := withResult_frame (engineNumber k) hi
  exact ⟨_, execSel_of_resolve hr, htables, hframe, withResult_completed _ hi⟩

/-! ## Two ids of one engine -/

theorem target_eq_of_resolve_eq (hr : resolve s.plat e = resolve s.plat e') : target s e = target s e' := by
  rw [target, target, hr]

theorem computeFrom_eq_of_resolve_eq (seed : Word) (hr : resolve s.plat e = resolve s.plat e') :
    computeFrom e seed s = computeFrom e' seed s := by
  rw [computeFrom, computeFrom, target_eq_of_resolve_eq hr]

/-- A command sees its engine operand through `resolve` alone (44_selector.md rule R162). -/
theorem exec_eq_of_resolve_eq (hr : resolve s.plat e = resolve s.plat e') {c : EngId → Instr} (hc : c ∈ engineCommands) :
    exec (c e) s = exec (c e') s := by
  have ht := target_eq_of_resolve_eq hr
  simp only [engineCommands, List.mem_cons, List.not_mem_nil, or_false] at hc
  obtain rfl | rfl | rfl | rfl | rfl | rfl := hc
  · rw [exec, exec, execSupp, execSupp, ht]
  · rw [exec, exec, execPoly, execPoly, ht]
  · exact computeFrom_eq_of_resolve_eq 0#32 hr
  · exact computeFrom_eq_of_resolve_eq (seedOperand s) hr
  · rw [exec, exec, execSel, execSel, hr]
  · rw [exec, exec, execTread, execTread, ht]

end Sys2Proof.Machine
end

section
/-!
PROOFS. The capability selector, part 2: the obligations of 44_selector.md, each from the lemmas of part 1.
-/

namespace Sys2Proof.Machine

/-- Settles O27: SEL completes with the number of the engine its id resolves to; a reserved id resolves to none. -/
theorem selReportsTheRealEngine : Obligations.SelReportsTheRealEngine := by
  intro s e hi
  refine ⟨fun he => ?_, ?_, ?_, fun he => ?_⟩
  · obtain ⟨k, hr, hk⟩ := resolve_real s.plat he
    rw [← hk]
    exact execSel_completes hi hr
  · rintro rfl
    exact execSel_completes hi (k := selCrc32) rfl
  · rintro rfl
    rw [← engineNumber_selCrc32c]
    exact execSel_completes hi rfl
  · obtain ⟨htables, hframe⟩ := withFault_frame .invalidArgument hi
    exact ⟨_, exec_of_idReserved s he (by simp [engineCommands]), htables, hframe, withFault_invalidArgument hi⟩

/-- Settles O28: an alias resolves as the real id the selector chose, and no command sees more of its operand. -/
theorem aliasActsAsTheRealEngine : Obligations.AliasActsAsTheRealEngine :=
  fun s _ hc => ⟨exec_eq_of_resolve_eq (resolve_best32 s.plat) hc, exec_eq_of_resolve_eq (resolve_best32c s.plat) hc⟩

end Sys2Proof.Machine
end

section
/-!
PROOFS. Exceptions, part 1: a fault told from every other end of a command, and which values written to `CMD` raise one
(60_exceptions.md rules R172 to R176).
-/

namespace Sys2Proof.Machine

variable {s : State} {e : EngId} {k : Engine} {f g : EzFault} {x : Result} {N I : Prop}

/-! ## A fault and the other ends -/

theorem errCode_ne_zero (f : EzFault) : errCode f ≠ 0#2 := by cases f <;> decide

theorem errCode_inj : errCode f = errCode g ↔ f = g := by cases f <;> cases g <;> decide

theorem errField_withFault (h : IssuerExists s) (f : EzFault) : errField (s.withFault f).port.status = errCode f := by
  rw [withFault_eq, port_setPort _ _ h]
  exact errField_statusFault _ _

theorem withFault_port_stuck (h : IssuerExists s) (f : EzFault) : (s.withFault f).port.stuck = s.port.stuck := by
  rw [withFault_eq, port_setPort _ _ h]

/-- The port is stuck, or `ERR` is 0: the ends of a command that are no fault (70_reset_and_hazards.md rule R200). -/
def EndsUnfaulted (x : Result) : Prop :=
  ∃ t, x = .next t ∧ (t.port.stuck = true ∨ errField t.port.status = 0#2)

theorem endsUnfaulted_complete (r : Word) (h : IssuerExists s) : EndsUnfaulted (complete r s) :=
  ⟨_, complete_next s r, .inr (withResult_completed r h).2.1⟩

theorem endsUnfaulted_completeQuietly (h : IssuerExists s) : EndsUnfaulted (completeQuietly s) :=
  ⟨_, completeQuietly_next s, .inr (withOk_completed h).2.1⟩

theorem endsUnfaulted_stall (h : IssuerExists s) : EndsUnfaulted (stall s) := by
  refine ⟨_, stall_next s, .inl ?_⟩
  rw [withStuck_eq, port_setPort _ _ h]

theorem raise_inj (h : IssuerExists s) : raise f s = raise g s ↔ f = g := by
  refine ⟨fun he => ?_, fun he => he ▸ rfl⟩
  have hstate : s.withFault f = s.withFault g := Host.Outcome.next.inj he
  rw [← errCode_inj, ← errField_withFault h f, ← errField_withFault h g, hstate]

theorem EndsUnfaulted.ne_raise (hx : EndsUnfaulted x) (h : CanIssue s) (f : EzFault) : x ≠ raise f s := by
  obtain ⟨hissuer, hfree⟩ := h
  obtain ⟨t, rfl, hend⟩ := hx
  intro he
  cases he
  rw [withFault_port_stuck hissuer, errField_withFault hissuer, hfree] at hend
  simp [errCode_ne_zero] at hend

/-- A value written to `CMD` raises a fault or ends in none. -/
theorem command_raise_or_unfaulted (v : Reg) (h : IssuerExists s) :
    (∃ f, command v s = raise f s) ∨ EndsUnfaulted (command v s) := by
  obtain hf | ⟨r, k, hc⟩ | ⟨-, hc⟩ | hc := command_cases v s
  · exact .inl hf
  · exact .inr (hc ▸ endsUnfaulted_complete r (issuerExists_needTable k h))
  · exact .inr (hc ▸ endsUnfaulted_completeQuietly h)
  · exact .inr (hc ▸ endsUnfaulted_stall h)

/-- What `STATUS.ERR` shows of a command that is over, says whether it raised a fault, and which. -/
theorem command_eq_raise_iff (v : Reg) (f : EzFault) (h : CanIssue s) :
    (∃ t, command v s = .next t ∧ t.port.stuck = false ∧ errField t.port.status = errCode f) ↔
      command v s = raise f s := by
  obtain ⟨hissuer, hfree⟩ := h
  constructor
  · rintro ⟨t, ht, hstuck, herr⟩
    obtain ⟨g, hg⟩ | ⟨u, hu, hend⟩ := command_raise_or_unfaulted v hissuer
    · cases ht.symm.trans hg
      rw [errField_withFault hissuer, errCode_inj] at herr
      rw [hg, herr]
    · cases ht.symm.trans hu
      simp [hstuck, herr, errCode_ne_zero] at hend
  · intro hc
    exact ⟨_, hc, (withFault_port_stuck hissuer f).trans hfree, errField_withFault hissuer f⟩

/-! ## When a command faults -/

/-- The outcome is NotSupported exactly when `N`, and InvalidArgument exactly when `I`. -/
structure FaultsExactly (s : State) (x : Result) (N I : Prop) : Prop where
  notSupported : x = raise .notSupported s ↔ N
  invalidArgument : x = raise .invalidArgument s ↔ I

theorem faultsExactly_notSupported (h : CanIssue s) (hN : N) (hI : ¬ I) :
    FaultsExactly s (raise .notSupported s) N I :=
  ⟨by simp [hN], by simp [hI, raise_inj h.1]⟩

theorem faultsExactly_invalidArgument (h : CanIssue s) (hN : ¬ N) (hI : I) :
    FaultsExactly s (raise .invalidArgument s) N I :=
  ⟨by simp [hN, raise_inj h.1], by simp [hI]⟩

theorem EndsUnfaulted.faultsExactly (hx : EndsUnfaulted x) (h : CanIssue s) (hN : ¬ N) (hI : ¬ I) :
    FaultsExactly s x N I :=
  ⟨by simp [hN, hx.ne_raise h], by simp [hI, hx.ne_raise h]⟩

/-- A command whose one fault is InvalidArgument. -/
theorem faultsExactly_of_invalidArgument_only (h : CanIssue s) (hI : I → x = raise .invalidArgument s)
    (hend : ¬ I → EndsUnfaulted x) : FaultsExactly s x False I := by
  by_cases hi : I
  · exact hI hi ▸ faultsExactly_invalidArgument h not_false hi
  · exact (hend hi).faultsExactly h not_false hi

theorem faultsExactly_stepIf {present : Bool} (r : Word) (h : CanIssue s) (hN : N ↔ present = false) :
    FaultsExactly s (stepIf present r s) N False := by
  cases present with
  | false => exact faultsExactly_notSupported h (hN.2 rfl) not_false
  | true => exact (endsUnfaulted_complete r h.1).faultsExactly h (mt hN.1 Bool.noConfusion) not_false

/-- The id of an unsupported engine is one of the two hardware ids; the selector answers supported engines only
(60_exceptions.md rule R173; 44_selector.md rule R161). -/
theorem engineUnsupported_iff (hr : resolve s.plat e = some k) :
    EngineUnsupported s.plat e ↔ supported s.plat k = false := by
  unfold resolve at hr
  split at hr
  case h_8 => cases hr
  case h_7 he =>
    cases hr
    simp [EngineUnsupported, BitVec.toNat_eq, he, (selCrc32c_spec s).1]
  all_goals
    rename_i he
    cases hr
    simp [EngineUnsupported, supported, selCrc32, BitVec.toNat_eq, he, Bool.and_eq_false_iff, -Bool.and_eq_false_imp]

theorem not_engineUnsupported_of_noSuchEngine (h : NoSuchEngine s e) : ¬ EngineUnsupported s.plat e := by
  unfold NoSuchEngine IdReserved at h
  unfold EngineUnsupported
  bv_omega

theorem exists_target_of_not_noSuchEngine (h : ¬ NoSuchEngine s e) : ∃ k, target s e = some k :=
  Option.ne_none_iff_exists'.1 (mt target_eq_none_iff.1 h)

/-- COMP and COMPF check the engine, then its support, then the arguments (60_exceptions.md rule R175). -/
theorem faultsExactly_computeFrom (e : EngId) (seed : Word) (h : CanIssue s) :
    FaultsExactly s (computeFrom e seed s) (EngineUnsupported s.plat e)
      (NoSuchEngine s e ∨ (¬ EngineUnsupported s.plat e ∧ ¬ ArgsGood s)) := by
  obtain ⟨ht, hc⟩ | ⟨k, ht, hend⟩ := computeFrom_cases e seed s
  · have hnone := target_eq_none_iff.1 ht
    exact hc ▸ faultsExactly_invalidArgument h (not_engineUnsupported_of_noSuchEngine hnone) (.inl hnone)
  · have hexists : ¬ NoSuchEngine s e := by simp [← target_eq_none_iff, ht]
    have hunsupported := engineUnsupported_iff (target_some.1 ht).1
    have hargs : argsOk s.port.ptr s.port.len = true ↔ ArgsGood s := argsOk_iff _ _
    obtain ⟨hs, hc⟩ | ⟨hs, ha, hc⟩ | ⟨hs, ha, -, hc⟩ | ⟨hs, ha, -, hc⟩ := hend <;> rw [hc]
    · exact faultsExactly_notSupported h (hunsupported.2 hs) (by simp [hexists, hunsupported, hs])
    · exact faultsExactly_invalidArgument h (by simp [hunsupported, hs]) (by simp [hunsupported, hs, ← hargs, ha])
    · exact (endsUnfaulted_stall h.1).faultsExactly h (by simp [hunsupported, hs]) (by simp [hexists, hargs.1 ha])
    · exact (endsUnfaulted_complete _ (issuerExists_needTable k h.1)).faultsExactly h (by simp [hunsupported, hs])
        (by simp [hexists, hargs.1 ha])

/-- TREAD of a generic engine that exists ends with an entry when there is such a column. -/
theorem endsUnfaulted_execTread (hi : IssuerExists s)
    (h : ¬ (NoSuchEngine s e ∨ StandsForHardware s.plat e ∨ 24 ≤ treadColumn s)) :
    EndsUnfaulted (exec (.tread e) s) := by
  simp only [not_or, Nat.not_le] at h
  obtain ⟨hexists, hgeneric, hcolumn⟩ := h
  obtain ⟨k, ht⟩ := exists_target_of_not_noSuchEngine hexists
  have hk := mt (standsForHardware_iff (target_some.1 ht).1).2 hgeneric
  obtain ⟨tbl, htable⟩ := Option.ne_none_iff_exists'.1 (mt (tableOf_eq_none_iff (s := needTable k s)).1 hk)
  simp only [exec, execTread, ht, readEntry, htable, entryAt_of_lt _ hcolumn]
  exact endsUnfaulted_complete _ (issuerExists_needTable k hi)

theorem faultsExactly_exec (i : Instr) (h : CanIssue s) :
    FaultsExactly s (exec i s) (RaisesNotSupported s i) (RaisesInvalidArgument s i) := by
  have hissuer := h.1
  cases i with
  | supp e =>
    refine faultsExactly_of_invalidArgument_only h execSupp_of_noSuchEngine fun hexists => ?_
    obtain ⟨k, ht⟩ := exists_target_of_not_noSuchEngine hexists
    exact execSupp_of_target ht ▸ endsUnfaulted_complete _ hissuer
  | poly e =>
    refine faultsExactly_of_invalidArgument_only h execPoly_of_noSuchEngine fun hexists => ?_
    obtain ⟨k, ht⟩ := exists_target_of_not_noSuchEngine hexists
    exact execPoly_of_target ht ▸ endsUnfaulted_complete _ hissuer
  | comp e => exact faultsExactly_computeFrom e _ h
  | compf e => exact faultsExactly_computeFrom e _ h
  | sel e =>
    refine faultsExactly_of_invalidArgument_only h
      (fun hres => exec_of_idReserved s hres (by simp [engineCommands])) fun hnamed => ?_
    obtain ⟨k, hr⟩ := Option.ne_none_iff_exists'.1 (mt (resolve_eq_none_iff s.plat e).1 hnamed)
    exact execSel_of_resolve hr ▸ endsUnfaulted_complete _ hissuer
  | tbuild =>
    have hend : EndsUnfaulted (exec .tbuild s) :=
      endsUnfaulted_completeQuietly (s := constructCustom (polyOperand s) s) hissuer
    exact hend.faultsExactly h not_false not_false
  | tread e => exact faultsExactly_of_invalidArgument_only h execTread_of_fault (endsUnfaulted_execTread hissuer)
  | cstepB => exact faultsExactly_stepIf _ h Iff.rfl
  | cstepH => exact faultsExactly_stepIf _ h Iff.rfl
  | cstepW => exact faultsExactly_stepIf _ h Iff.rfl
  | cstepD => exact faultsExactly_stepIf _ h Bool.and_eq_false_iff.symm

/-- A value written to `CMD` is a reserved encoding, which raises InvalidArgument, or faults as its command does. -/
theorem faultsExactly_command (v : Reg) (h : CanIssue s) :
    FaultsExactly s (command v s) (∃ i, decode v = .instr i ∧ RaisesNotSupported s i)
      (ReservedValue v ∨ ∃ i, decode v = .instr i ∧ RaisesInvalidArgument s i) := by
  cases hd : decode v with
  | reserved r =>
    have hv : ReservedValue v := (decode_reserved_iff v).1 ⟨r, hd⟩
    rw [command_of_reservedValue s hv]
    exact faultsExactly_invalidArgument h (by simp) (.inl hv)
  | instr i =>
    have hv : ¬ ReservedValue v := by simp [← decode_reserved_iff, hd]
    have hc : command v s = exec i s := by simp [command, hd]
    simpa [hc, hv] using faultsExactly_exec i h

/-! ## A fault and the outside world -/

/-- The state with other contents of buffer memory and other addresses that are not `readable`. -/
def State.withOutside (m : Memory) (u : List Region) (s : State) : State :=
  { s with mem := m, plat := { s.plat with unreadable := u } }

theorem raisesNotSupported_withOutside (m : Memory) (u : List Region) (s : State) :
    RaisesNotSupported (s.withOutside m u) = RaisesNotSupported s := by
  funext i
  cases i <;> rfl

theorem raisesInvalidArgument_withOutside (m : Memory) (u : List Region) (s : State) :
    RaisesInvalidArgument (s.withOutside m u) = RaisesInvalidArgument s := by
  funext i
  cases i <;> rfl

/-- No condition of a fault is about memory or what is readable (60_exceptions.md rule R176). -/
theorem command_withOutside_of_raise {v : Reg} (m : Memory) (u : List Region) (h : CanIssue s)
    (hc : command v s = raise f s) : command v (s.withOutside m u) = raise f (s.withOutside m u) := by
  have here := faultsExactly_command v h
  have there : FaultsExactly (s.withOutside m u) _ _ _ := faultsExactly_command v h
  rw [raisesNotSupported_withOutside, raisesInvalidArgument_withOutside] at there
  cases f with
  | notSupported => exact there.notSupported.2 (here.notSupported.1 hc)
  | invalidArgument => exact there.invalidArgument.2 (here.invalidArgument.1 hc)

end Sys2Proof.Machine
end

section
/-!
PROOFS. Exceptions, part 2: two commands of different ports (60_exceptions.md rules R184, R185).
-/

namespace Sys2Proof.Machine

variable {s s' t : State} {p q : Nat} {v : Reg} {rest : List Event} {x x' : Result}

/-! ## Which table a command builds -/

/-- The command ends with the lazy build for engine `k` and a write of its own port. -/
def BuildsFor (k : Engine) (s : State) (x : Result) : Prop := ∃ a, x = .next ((needTable k s).setPort a)

/-- Both commands end with the lazy build for the same engine and a write of their own ports. -/
def BuildAlike (s s' : State) (x x' : Result) : Prop := ∃ k, BuildsFor k s x ∧ BuildsFor k s' x'

/-- Engine 2 has no lazy build, so it stands for a command that builds no table. -/
theorem EndsWithoutBuild.buildsFor (h : EndsWithoutBuild s x) : BuildsFor .gencu s x := by
  obtain ⟨f, rfl⟩ | ⟨r, rfl⟩ := h
  · exact ⟨_, rfl⟩
  · exact ⟨_, rfl⟩

theorem EndsWithoutBuild.buildAlike (h : EndsWithoutBuild s x) (h' : EndsWithoutBuild s' x') : BuildAlike s s' x x' :=
  ⟨.gencu, h.buildsFor, h'.buildsFor⟩

theorem buildAlike_raise (f : EzFault) : BuildAlike s s' (raise f s) (raise f s') :=
  EndsWithoutBuild.buildAlike (.inl ⟨f, rfl⟩) (.inl ⟨f, rfl⟩)

theorem buildAlike_stall : BuildAlike s s' (stall s) (stall s') := ⟨.gencu, ⟨_, rfl⟩, ⟨_, rfl⟩⟩

theorem buildAlike_complete (k : Engine) (r r' : Word) :
    BuildAlike s s' (complete r (needTable k s)) (complete r' (needTable k s')) := ⟨k, ⟨_, rfl⟩, ⟨_, rfl⟩⟩

namespace LooksAlike

theorem buildAlike_computeFrom (h : LooksAlike s s') (e : EngId) (seed seed' : Word) :
    BuildAlike s s' (computeFrom e seed s) (computeFrom e seed' s') := by
  unfold computeFrom foldBuffer
  rw [h.target_eq, h.port, h.plat]
  cases target s' e with
  | none => exact buildAlike_raise _
  | some k =>
    dsimp only
    split
    · exact buildAlike_raise _
    split
    · exact buildAlike_raise _
    split
    · exact buildAlike_complete k _ _
    · exact buildAlike_stall

theorem buildAlike_execTread (h : LooksAlike s s') (e : EngId) : BuildAlike s s' (execTread e s) (execTread e s') := by
  unfold execTread readEntry columnOperand rowOperand
  rw [h.target_eq, h.port]
  cases target s' e with
  | none => exact buildAlike_raise _
  | some k =>
    dsimp only
    rw [h.tableOf_eq]
    cases tableOf (needTable k s') k with
    | none => exact buildAlike_raise _
    | some t =>
      dsimp only
      cases entryAt t _ _ with
      | none => exact buildAlike_raise _
      | some r => exact buildAlike_complete k r r

theorem buildAlike_exec (h : LooksAlike s s') {i : Instr} (hi : i ≠ .tbuild) :
    BuildAlike s s' (exec i s) (exec i s') := by
  cases i with
  | supp e => exact (execSupp_endsWithoutBuild e s).buildAlike (execSupp_endsWithoutBuild e s')
  | poly e => exact (execPoly_endsWithoutBuild e s).buildAlike (execPoly_endsWithoutBuild e s')
  | comp e => exact h.buildAlike_computeFrom e _ _
  | compf e => exact h.buildAlike_computeFrom e _ _
  | sel e => exact (execSel_endsWithoutBuild e s).buildAlike (execSel_endsWithoutBuild e s')
  | tbuild => exact absurd rfl hi
  | tread e => exact h.buildAlike_execTread e
  | cstepB => exact (stepIf_endsWithoutBuild _ _ s).buildAlike (stepIf_endsWithoutBuild _ _ s')
  | cstepH => exact (stepIf_endsWithoutBuild _ _ s).buildAlike (stepIf_endsWithoutBuild _ _ s')
  | cstepW => exact (stepIf_endsWithoutBuild _ _ s).buildAlike (stepIf_endsWithoutBuild _ _ s')
  | cstepD => exact (stepIf_endsWithoutBuild _ _ s).buildAlike (stepIf_endsWithoutBuild _ _ s')

theorem buildAlike_command (h : LooksAlike s s') (hd : decode v ≠ .instr .tbuild) :
    BuildAlike s s' (command v s) (command v s') := by
  unfold command
  cases hi : decode v with
  | reserved r => exact buildAlike_raise _
  | instr i => exact h.buildAlike_exec (by rintro rfl; exact hd hi)

/-- Seen from states its port cannot tell apart, a command but `TBUILD` builds the same table and leaves its port the
same. -/
theorem command_same_end (h : LooksAlike s s') (hd : decode v ≠ .instr .tbuild) :
    ∃ k a, command v s = .next ((needTable k s).setPort a) ∧ command v s' = .next ((needTable k s').setPort a) := by
  obtain ⟨k, ⟨a, ha⟩, a', ha'⟩ := h.buildAlike_command hd
  obtain ⟨t, t', ht, ht', hport, -, -⟩ := h.endAlike_command v
  cases ht.symm.trans ha
  cases ht'.symm.trans ha'
  rw [port_setPort _ _ (issuerExists_needTable k h.issuer),
    port_setPort _ _ (issuerExists_needTable k h.issuer')] at hport
  exact ⟨k, a, ha, hport ▸ ha'⟩

end LooksAlike

/-! ## One port's turn before another's -/

/-- A command of another port does not reach port `q` (60_exceptions.md rule R185). -/
theorem ports_after_command (hpq : p ≠ q) (h : command v (served s p rest) = .next t) :
    t.ports[q]? = s.ports[q]? := by
  obtain ⟨a, hports, -⟩ := (command_end h).ports
  rw [hports]
  exact List.getElem?_set_ne hpq

/-- A command but `TBUILD` of another port leaves all that port `q` looks at. -/
theorem looksAlike_after_command {b : Port} (hpq : p ≠ q) (hb : TablesBuilt s) (hq : s.ports[q]? = some b)
    (hd : decode v ≠ .instr .tbuild) (h : command v (served s p rest) = .next t) (evs evs' : List Event) :
    LooksAlike (served s q evs) (served t q evs') := by
  have hend := command_end h
  obtain ⟨hplat, hmem, -, -⟩ := hend.outside
  have hlazy : LazilyBuilt (served s p rest) t := hend.tables.resolve_right fun h => hd h.1
  have ⟨_, _, hslot2, hcpoly⟩ := hlazy
  have hq' : t.ports[q]? = some b := (ports_after_command hpq h).trans hq
  exact {
    issuer := issuerExists_served hq
    issuer' := issuerExists_served hq'
    built := hb
    built' := hlazy.tablesBuilt hb
    port := by rw [served_port hq, served_port hq']
    plat := hplat.symm
    read := fun _ => by simp only [served, hmem]
    slot2 := hslot2.symm
    cpoly := hcpoly.symm }

theorem needTable_comm (k l : Engine) (s : State) : needTable k (needTable l s) = needTable l (needTable k s) := by
  cases k <;> cases l <;> rfl

/-- The state after a turn of port `p`: the lazy build for `k`, and the port as its command left it. -/
def turn (k : Engine) (p : Nat) (a : Port) (rest : List Event) (s : State) : State :=
  (needTable k (served s p rest)).setPort a

theorem turn_turn (k l : Engine) (p q : Nat) (a b : Port) (evs rest : List Event) (s : State) :
    turn l q b rest (turn k p a evs s) =
      { needTable l (needTable k s) with ports := (s.ports.set p a).set q b, events := rest, cur := q } := by
  cases k <;> cases l <;> rfl

/-- Turns of different ports commute, but for the number of the port served last. -/
theorem turn_comm (hpq : p ≠ q) (k l : Engine) (a b : Port) (evs evs' rest : List Event) (s : State) :
    { turn l q b rest (turn k p a evs s) with cur := 0 } = { turn k p a rest (turn l q b evs' s) with cur := 0 } := by
  rw [turn_turn, turn_turn, needTable_comm, List.set_comm _ _ hpq]

/-- `CMD` writes of two ports are the first port's command, then the second's. -/
theorem run_two_cmdWrites {u : State} {w : Reg} {a b : Port} (hpq : p ≠ q) (hp : s.ports[p]? = some a)
    (hq : s.ports[q]? = some b) (ha : a.stuck = false) (hb : b.stuck = false)
    (hfirst : command v (served s p (.access q (.write 7 w) :: rest)) = .next t)
    (hsecond : command w (served t q rest) = .next u) :
    core.run 2 { s with events := .access p (.write 7 v) :: .access q (.write 7 w) :: rest } = .next u := by
  have hstep : step { s with events := .access p (.write 7 v) :: .access q (.write 7 w) :: rest } = .next t :=
    Eq.trans (step_access rfl hp ha) hfirst
  obtain ⟨-, -, hevents, -⟩ := (command_end hfirst).outside
  have hstep' : step t = .next u :=
    Eq.trans (step_access hevents ((ports_after_command hpq hfirst).trans hq) hb) hsecond
  exact run_two hstep hstep'

end Sys2Proof.Machine
end

section
/-!
PROOFS. Exceptions, part 3: the obligations of 60_exceptions.md, each from the lemmas of parts 1 and 2.
-/

namespace Sys2Proof.Machine

/-- Settles O21: an `ERR` not 0 tells that the command raised a fault, and a fault looks at nothing outside. -/
theorem faultChangesOnlyStatus : Obligations.FaultChangesOnlyStatus := by
  intro v s t hcan ht hstuck herr
  obtain ⟨f, hf⟩ | ⟨u, hu, hend⟩ := command_raise_or_unfaulted v hcan.1
  · cases ht.symm.trans hf
    obtain ⟨htables, hframe⟩ := withFault_frame f hcan.1
    refine ⟨?_, htables, hframe, fun m u => command_withOutside_of_raise m u hcan hf⟩
    rw [errField_withFault hcan.1]
    cases f with
    | notSupported => exact .inl ⟨rfl, withFault_notSupported hcan.1⟩
    | invalidArgument => exact .inr ⟨rfl, withFault_invalidArgument hcan.1⟩
  · cases ht.symm.trans hu
    simp [hstuck, herr] at hend

/-- Settles O23: `ERR` 1 is the mark of the fault, whose conditions are those of `faultsExactly_command`. -/
theorem notSupportedIsRaisedExactly : Obligations.NotSupportedIsRaisedExactly := fun v _ h =>
  (command_eq_raise_iff v .notSupported h).trans (faultsExactly_command v h).notSupported

/-- Settles O24: `ERR` 2 is the mark of the fault, whose conditions are those of `faultsExactly_command`. -/
theorem invalidArgumentIsRaisedExactly : Obligations.InvalidArgumentIsRaisedExactly := fun v _ h =>
  (command_eq_raise_iff v .invalidArgument h).trans (faultsExactly_command v h).invalidArgument

/-- Settles O51: each command ends the same whether or not the other came first, so the two runs are the same two turns
in either order. -/
theorem commandsOfDifferentPortsCommute : Obligations.CommandsOfDifferentPortsCommute := by
  intro s p q x y v w rest hpq hb hp hq hx hy hv hw
  obtain ⟨t, ht⟩ := command_next v (served s p (.access q (.write 7 w) :: rest))
  obtain ⟨u, hu⟩ := command_next w (served s q (.access p (.write 7 v) :: rest))
  obtain ⟨k, a, hfirst, hsecond⟩ :=
    (looksAlike_after_command hpq.symm hb hp hw hu (.access q (.write 7 w) :: rest) rest).command_same_end hv
  obtain ⟨l, b, hfirst', hsecond'⟩ :=
    (looksAlike_after_command hpq hb hq hv ht (.access p (.write 7 v) :: rest) rest).command_same_end hw
  cases ht.symm.trans hfirst
  cases hu.symm.trans hfirst'
  exact ⟨_, _, run_two_cmdWrites hpq hp hq hx hy hfirst hsecond',
    run_two_cmdWrites hpq.symm hq hp hy hx hfirst' hsecond, turn_comm hpq k l a b _ _ rest s⟩

/-- Settles O55: a step serves no reset while a port is stuck, the act of a stuck port is passed over, and the act of
another port does not reach it. -/
theorem stuckPortStaysAsItIs : Obligations.StuckPortStaysAsItIs := by
  intro s t p q hstep hq hstuck
  obtain ⟨-, rfl⟩ | ⟨a, b, rest, -, hfree, -⟩ | ⟨a, b, rest, -, rfl⟩ |
    ⟨p', ev, rest, q', he, hev, hq', ⟨-, rfl⟩ | ⟨hfree, -⟩⟩ := step_cases hstep
  · exact hq
  · exact absurd hstuck (by simp [hfree q (List.mem_of_getElem? hq)])
  · exact hq
  · exact hq
  · have hne : p ≠ p' := by
      rintro rfl
      cases hq.symm.trans hq'
      exact absurd hstuck (by simp [hfree])
    have hacts : ActsNext s p' rest := by
      obtain ⟨op, rfl⟩ | ⟨v, held, draws, rfl⟩ := hev
      · exact .inl ⟨op, he⟩
      · exact .inr ⟨v, held, draws, he⟩
    exact (portsReachOnlyTheirOwnRegisters s t p' p rest hne hstep hacts).trans hq

end Sys2Proof.Machine
end

section
/-!
PROOFS. Reset and hazards: the obligation of 70_reset_and_hazards.md on how a command ends, from the lemmas on each of
its ends.
-/

namespace Sys2Proof.Machine

variable {s t : State}

/-- A command that leaves what every finished command leaves, leaves its port free to issue the next. -/
theorem port_free_of_commandFrame (h : CommandFrame s t) (hfree : s.port.stuck = false) : t.port.stuck = false := by
  obtain ⟨⟨-, -, -, -, -, hstuck⟩, -, -⟩ := h
  exact hstuck.trans hfree

/-- A fault is of one of the two kinds (60_exceptions.md rule R170). -/
theorem withFault_raised (f : EzFault) (h : IssuerExists s) :
    RaisedNotSupported s (s.withFault f) ∨ RaisedInvalidArgument s (s.withFault f) := by
  cases f with
  | notSupported => exact .inl (withFault_notSupported h)
  | invalidArgument => exact .inr (withFault_invalidArgument h)

/-- Settles O22: a command ends in a next state, in one of the four ways of `CommandEnd`; a result and the construction
of the custom engine are the two that complete. -/
theorem everyCommandEndsInOneOfThreeWays : Obligations.EveryCommandEndsInOneOfThreeWays := by
  rintro v s ⟨hissuer, hfree⟩
  obtain ⟨t, ht⟩ := command_next v s
  refine ⟨t, ht, ?_⟩
  cases command_end ht with
  | fault f =>
    obtain ⟨htables, hframe⟩ := withFault_frame f hissuer
    exact .inr (.inl ⟨port_free_of_commandFrame hframe hfree, withFault_raised f hissuer, htables⟩)
  | result r k =>
    obtain ⟨-, herr, hsticky⟩ := completed_needTable k r hissuer
    exact .inl ⟨port_free_of_commandFrame (commandFrame_needTable k r hissuer) hfree, herr, hsticky⟩
  | tbuild =>
    have hissuer' : IssuerExists (constructCustom (polyOperand s) s) := hissuer
    obtain ⟨-, herr, hsticky⟩ := withOk_completed hissuer'
    exact .inl ⟨port_free_of_commandFrame (withOk_frame hissuer') hfree, herr, hsticky⟩
  | stuck => exact .inr (.inr withStuck_becameStuck)

end Sys2Proof.Machine
end
